-- ==== Sys2Proof/Word.lean ====
section
/-! DEFINITION. The word types of the block (00_scope.md rules R7, R9): bytes, the 32-bit command
word, and the 32-bit response value. All integers of the spec are unsigned (R10). -/

namespace Sys2Proof

/-- A byte, an unsigned integer 0 to 255, bit 0 the least significant (R9). -/
abbrev Byte := BitVec 8

/-- A command word: 32 bits, bit 31 the most significant (R7, R80). -/
abbrev CommandWord := BitVec 32

/-- A response value `r0` or `r1`: 32 bits, unsigned (R7, R12). -/
abbrev Value := BitVec 32

/-- `zext_32(v)` of R10: the number as a 32-bit value. Under the constraint R8 it never changes the
number (log entry 10). -/
def zext32 (n : Nat) : Value := BitVec.ofNat 32 n

end Sys2Proof
end

