-- ==== Sys2Proof/Config.lean ====
section
/-! DEFINITION. The parameters of the block (00_scope.md rules R5 to R8): the constants the spec
fixes by value, and the two bank sizes it leaves OPEN. They are constants of the implementation and
not state (R181). -/

namespace Sys2Proof.Config

/-- `HEADER_SIZE` (R5). -/
def headerSize : Nat := 16

/-- `TRAINER_SIZE` (R5). -/
def trainerSize : Nat := 512

/-- `TILE_SIZE` (R5). -/
def tileSize : Nat := 16

/-- `MAGIC` (R5, R27). -/
def magic : List Byte := [0x4E, 0x45, 0x53, 0x1A]

/-- `LEN_MAX` (R7). -/
def lenMax : Nat := 2 ^ 32 - 1

/-- What the spec lets a model assume of the two OPEN bank sizes: both positive, graphics banks a
whole number of tile records (R6), and the exactness constraint (R8). -/
abbrev LegalSizes (prg chr : Nat) : Prop :=
  0 < prg ∧ 0 < chr ∧ chr % 16 = 0 ∧
    16 + 512 + 255 * prg + 65535 * max prg chr + 16 * 65535 + 1 < 2 ^ 32

/-- The pair an implementation fixes for `(PRG_BANK_SIZE, CHR_BANK_SIZE)`. It has no body, so
nothing can be proved of it (log entry 1; R6, D13: OPEN). -/
opaque bankSizesChosen : Nat × Nat

/-- The bank sizes in force: the implementation's pair where it is legal (every legal pair is
possible), else the pair R6 recommends, so that the two constraints the spec grants hold of it and
nothing else is known of it (log entry 1). -/
@[irreducible] def bankSizes : Nat × Nat :=
  if LegalSizes bankSizesChosen.1 bankSizesChosen.2 then bankSizesChosen else (16384, 8192)

/-- `PRG_BANK_SIZE`, bytes in one program bank: OPEN (R6). -/
def prgBankSize : Nat := bankSizes.1

/-- `CHR_BANK_SIZE`, bytes in one graphics bank: OPEN (R6). -/
def chrBankSize : Nat := bankSizes.2

/-- `TILES_PER_BANK`, the records in one graphics bank (R6). -/
def tilesPerBank : Nat := chrBankSize / tileSize

end Sys2Proof.Config
end

