-- ==== Sys2Proof/Syntax.lean ====
section
/-! DEFINITION. The sixteen commands of IHP-1 (30_encoding.md rule R86), one constructor per row of
spec/opcode_table.json. The operand widths are those of R7: an index above them cannot be expressed
(R84, U12). -/

namespace Sys2Proof

/-- A command of the block with its immediate operands. The bulk operand of `DECODE` is no
immediate: it comes beside the command word (R85). -/
inductive Instr where
  /-- `DECODE` (R100): validate the header and latch the image. -/
  | decode
  /-- `RESET` (R101): end the decoder's lifetime. -/
  | reset
  /-- `PRGCNT` (R110): program bank count. -/
  | prgcnt
  /-- `CHRCNT` (R111): graphics bank count. -/
  | chrcnt
  /-- `MIRROR` (R112): mirroring mode. -/
  | mirror
  /-- `BATTERY` (R113): battery-backed RAM flag. -/
  | battery
  /-- `TRAINER` (R114): trainer-present flag. -/
  | trainer
  /-- `MAPPER` (R115): mapper number. -/
  | mapper
  /-- `RAMCNT` (R116): RAM bank count, normalised. -/
  | ramcnt
  /-- `PRGOFF i` (R130): offset of program bank `i`. -/
  | prgoff (i : BitVec 16)
  /-- `CHROFF i` (R131): offset of graphics bank `i`. -/
  | chroff (i : BitVec 16)
  /-- `PRGSLICE i` (R140): view of program bank `i`. -/
  | prgslice (i : BitVec 16)
  /-- `CHRSLICE i` (R141): view of graphics bank `i`. -/
  | chrslice (i : BitVec 16)
  /-- `TRNSLICE` (R142): view of the trainer region. -/
  | trnslice
  /-- `TITLE` (R143): view of the optional title. -/
  | title
  /-- `TILE b, k` (R144): view of tile record `k` of graphics bank `b`. -/
  | tile (b : BitVec 8) (k : BitVec 16)
  deriving DecidableEq, Repr

/-- The mnemonic of R86, in capitals. -/
def Instr.mnemonic : Instr → String
  | .decode => "DECODE"
  | .reset => "RESET"
  | .prgcnt => "PRGCNT"
  | .chrcnt => "CHRCNT"
  | .mirror => "MIRROR"
  | .battery => "BATTERY"
  | .trainer => "TRAINER"
  | .mapper => "MAPPER"
  | .ramcnt => "RAMCNT"
  | .prgoff _ => "PRGOFF"
  | .chroff _ => "CHROFF"
  | .prgslice _ => "PRGSLICE"
  | .chrslice _ => "CHRSLICE"
  | .trnslice => "TRNSLICE"
  | .title => "TITLE"
  | .tile _ _ => "TILE"

/-- An accessor: every command but `DECODE` and `RESET` (R163). -/
def Instr.isAccessor : Instr → Bool
  | .decode => false
  | .reset => false
  | .prgcnt => true
  | .chrcnt => true
  | .mirror => true
  | .battery => true
  | .trainer => true
  | .mapper => true
  | .ramcnt => true
  | .prgoff _ => true
  | .chroff _ => true
  | .prgslice _ => true
  | .chrslice _ => true
  | .trnslice => true
  | .title => true
  | .tile _ _ => true

end Sys2Proof
end

