-- ==== Sys2Proof/WellFormed.lean ====
section
/-! DEFINITION. What the spec calls well formed. An instruction of `Instr` is well formed by its
types, which have the operand widths of R7. What the host presents is not: a command word is well
formed when it matches a row of the opcode map (30_encoding.md rules R86 to R88), and a bulk operand
when it can be presented to the block at all (R7, R85). The map is written here from R86's match and
mask columns, apart from the decoder, which is written from R80 to R84. -/

namespace Sys2Proof

/-- A row of the opcode map: a word `w` selects it exactly when `w & mask = match` (R86). -/
structure OpcodeRow where
  mnemonic : String
  pattern : CommandWord
  mask : CommandWord
  deriving DecidableEq, Repr

/-- `w & mask = match` (R86). -/
def OpcodeRow.selects (r : OpcodeRow) (w : CommandWord) : Bool := w &&& r.mask == r.pattern

/-- The construction and metadata rows of R86. -/
def metadataRows : List OpcodeRow :=
  [⟨"DECODE", 0x01000000#32, 0xFFFFFFFF#32⟩, ⟨"RESET", 0x02000000#32, 0xFFFFFFFF#32⟩,
    ⟨"PRGCNT", 0x10000000#32, 0xFFFFFFFF#32⟩, ⟨"CHRCNT", 0x11000000#32, 0xFFFFFFFF#32⟩,
    ⟨"MIRROR", 0x12000000#32, 0xFFFFFFFF#32⟩, ⟨"BATTERY", 0x13000000#32, 0xFFFFFFFF#32⟩,
    ⟨"TRAINER", 0x14000000#32, 0xFFFFFFFF#32⟩, ⟨"MAPPER", 0x15000000#32, 0xFFFFFFFF#32⟩,
    ⟨"RAMCNT", 0x16000000#32, 0xFFFFFFFF#32⟩]

/-- The offset and region rows of R86. -/
def regionRows : List OpcodeRow :=
  [⟨"PRGOFF", 0x20000000#32, 0xFFFF0000#32⟩, ⟨"CHROFF", 0x21000000#32, 0xFFFF0000#32⟩,
    ⟨"PRGSLICE", 0x22000000#32, 0xFFFF0000#32⟩, ⟨"CHRSLICE", 0x23000000#32, 0xFFFF0000#32⟩,
    ⟨"TRNSLICE", 0x24000000#32, 0xFFFFFFFF#32⟩, ⟨"TITLE", 0x25000000#32, 0xFFFFFFFF#32⟩,
    ⟨"TILE", 0x26000000#32, 0xFF000000#32⟩]

/-- The complete opcode map (R86). -/
def opcodeRows : List OpcodeRow := metadataRows ++ regionRows

/-- A well-formed command word: one that matches a row of the opcode map (R86, R88). -/
def CommandWord.wellFormed (w : CommandWord) : Bool := opcodeRows.any (·.selects w)

/-- A bulk operand the host can present: at most `LEN_MAX` bytes (R7, R85). -/
def bulkWellFormed (bytes : List Byte) : Bool := decide (bytes.length ≤ Config.lenMax)

end Sys2Proof
end

