-- ==== Sys2Proof/Decode.lean ====
section
/-! DEFINITION. The decoder, total on 32-bit words (30_encoding.md rules R80 to R89), the encoder
beside it, and the host's view of the decoder. -/

namespace Sys2Proof

/-- What decoding a command word gives: an instruction, or one of the two ways a word is illegal.
Both raise `IllegalCommand` (R87, R88, R165). -/
inductive Decoded where
  /-- The word is this instruction. -/
  | instr (i : Instr)
  /-- The opcode byte is not assigned (R87). -/
  | illegalOpcode
  /-- The opcode is assigned and the format's reserved bits are not zero (R88). -/
  | reservedBits
  deriving DecidableEq, Repr

/-- The opcode, bits 31:24 in every format (R80). -/
def opcodeField (w : CommandWord) : BitVec 8 := w.extractLsb' 24 8

/-- Format N: bits 23:0 are reserved and must be 0 (R81, R88). -/
def formatN (w : CommandWord) (i : Instr) : Decoded :=
  if w.extractLsb' 0 24 = 0 then .instr i else .reservedBits

/-- Format I: bits 23:16 are reserved and must be 0; `i = word[15:0]` (R82, R84, R88). -/
def formatI (w : CommandWord) (mk : BitVec 16 → Instr) : Decoded :=
  if w.extractLsb' 16 8 = 0 then .instr (mk (w.extractLsb' 0 16)) else .reservedBits

/-- Format T: `k = word[23:8]`, `b = word[7:0]`, no reserved bits (R83, R84). -/
def formatT (w : CommandWord) (mk : BitVec 8 → BitVec 16 → Instr) : Decoded :=
  .instr (mk (w.extractLsb' 0 8) (w.extractLsb' 8 16))

/-- The decoder of R89: the opcode byte alone selects the operation and its format (R80, R86). -/
def decode (w : CommandWord) : Decoded :=
  match (opcodeField w).toNat with
  | 0x01 => formatN w .decode
  | 0x02 => formatN w .reset
  | 0x10 => formatN w .prgcnt
  | 0x11 => formatN w .chrcnt
  | 0x12 => formatN w .mirror
  | 0x13 => formatN w .battery
  | 0x14 => formatN w .trainer
  | 0x15 => formatN w .mapper
  | 0x16 => formatN w .ramcnt
  | 0x20 => formatI w .prgoff
  | 0x21 => formatI w .chroff
  | 0x22 => formatI w .prgslice
  | 0x23 => formatI w .chrslice
  | 0x24 => formatN w .trnslice
  | 0x25 => formatN w .title
  | 0x26 => formatT w .tile
  | _ => .illegalOpcode

/-- A format N word: `opcode`, then 24 zero bits (R81). -/
def wordN (opcode : BitVec 8) : CommandWord := opcode ++ 0#24

/-- A format I word: `opcode`, 8 zero bits, `i` (R82). -/
def wordI (opcode : BitVec 8) (i : BitVec 16) : CommandWord := opcode ++ 0#8 ++ i

/-- A format T word: `opcode`, `k`, `b` (R83). -/
def wordT (opcode : BitVec 8) (b : BitVec 8) (k : BitVec 16) : CommandWord := opcode ++ k ++ b

/-- The command word of an instruction (R81 to R86). -/
def encode : Instr → CommandWord
  | .decode => wordN 0x01
  | .reset => wordN 0x02
  | .prgcnt => wordN 0x10
  | .chrcnt => wordN 0x11
  | .mirror => wordN 0x12
  | .battery => wordN 0x13
  | .trainer => wordN 0x14
  | .mapper => wordN 0x15
  | .ramcnt => wordN 0x16
  | .prgoff i => wordI 0x20 i
  | .chroff i => wordI 0x21 i
  | .prgslice i => wordI 0x22 i
  | .chrslice i => wordI 0x23 i
  | .trnslice => wordN 0x24
  | .title => wordN 0x25
  | .tile b k => wordT 0x26 b k

/-- A word given as a number of `nbits` bits, bit 0 the least significant, as a command word. The
block knows one length only, 32 bits (R80). -/
def tableWord (nbits w : Nat) : CommandWord := BitVec.ofNat 32 (w % 2 ^ nbits)

/-- The instruction the decoder reads from such a word; none where it is illegal (R89). -/
def decodeTableWord (nbits w : Nat) : Option Instr :=
  match decode (tableWord nbits w) with
  | .instr i => some i
  | .illegalOpcode => none
  | .reservedBits => none

end Sys2Proof
end

