-- ==== Sys2Proof/Machine/State.lean ====
section
/-! DEFINITION. The state of the block as plain data, and the machine right after reset
(10_state.md). The block's own state is `ready` and `img` (R22, R23; `LEN` is the length of `img`,
R24). `input` and `responses` are the two sides of its transaction interface (R12, R13). -/

namespace Sys2Proof.Machine

/-- The image `IMG` as a list of (offset, byte) cells. Its one canonical form lists the offsets
0, 1, … LEN - 1 in that order (`Memory.wf`); an unlisted offset does not exist (R50) and reads as
nothing (log entry 8). -/
abbrev Memory := List Host.Cell

/-- The five errors a command can raise (60_exceptions.md R160). Each is a response of the block,
not a stop of the model. -/
inductive ErrorKind where
  /-- Code 1, by `DECODE`: operand shorter than 16 bytes, or wrong magic (R161). -/
  | headerMismatch
  /-- Code 2, by `PRGSLICE`, `CHRSLICE`, `TRNSLICE`, `TILE`: index or region out of range (R162). -/
  | rangeError
  /-- Code 3, by every command but `DECODE` and `RESET`: `ready = 0` (R163). -/
  | notDecoded
  /-- Code 4, by `DECODE`: `ready = 1` (R164). -/
  | alreadyDecoded
  /-- Code 5, by any command word: illegal opcode or non-zero reserved bits (R165). -/
  | illegalCommand
  deriving DecidableEq, Repr

/-- The status of a response (R160); codes 6 to 15 are never produced (U14). -/
inductive Status where
  | ok
  | error (e : ErrorKind)
  deriving DecidableEq, Repr

/-- The response `(st, r0, r1, data)` of a command (R12). -/
structure Response where
  st : Status
  r0 : Value
  r1 : Value
  data : List Byte
  deriving DecidableEq, Repr

/-- A command as the host issues it: the command word, and the bytes on the image-load interface
beside it (`[]` when the host presents none), which only `DECODE` uses (R13, R85). -/
structure Command where
  word : CommandWord
  bulk : List Byte
  deriving DecidableEq, Repr

/-- What the host can do to the block: issue a command (R13), or cause the reset event between two
commands (R180). -/
inductive HostEvent where
  | command (c : Command)
  | resetEvent
  deriving DecidableEq, Repr

/-- The state: the block's `ready` and `IMG`, what the host has pending, and what the block has
answered. -/
structure State where
  /-- `ready` (R22): false is Idle, true is Ready. -/
  ready : Bool
  /-- `IMG` (R23); `LEN` is its length (R24). -/
  img : Memory
  /-- The host's pending events, the next first; the command under execution is its head until it
  is answered. The model's own field (log entry 2). -/
  input : List HostEvent
  /-- The responses delivered, the latest last. The model's own field (log entry 3). -/
  responses : List Response
  deriving DecidableEq, Repr

/-- The ways the model stops with a fault. -/
inductive Fault where
  /-- A read of `IMG` at this offset, at or beyond `LEN`, raised by the read operations when a
  meaning calls them outside their precondition (R11 asks for a fault of the model). Safe: no state
  that meets the invariant of R25 reaches it. -/
  | readOutsideImage (offset : Nat)
  deriving DecidableEq, Repr

/-- The ways the model refuses. -/
inductive Refusal where
  /-- The instruction has no meaning in the model yet; raised by `exec` alone. Safe. -/
  | notModelled (mnemonic : String)
  /-- `DECODE` with more than `LEN_MAX` bytes, which cannot be presented to the block and has no
  meaning (R7, U12); raised by `DECODE`. Safe. -/
  | operandTooLong
  deriving DecidableEq, Repr

/-- The machine right after reset (R36): Idle, no image; nothing pending and nothing answered. -/
def State.reset : State := { ready := false, img := [], input := [], responses := [] }

end Sys2Proof.Machine
end

