-- ==== Sys2Proof/Machine/Ops.lean ====
section
/-! DEFINITION. The operations every meaning is written over: reading the image (R11), latching and
clearing it (R23), ending a command with a response (R12), raising an error (R168), the state check
(R163), and the reset event (R180). -/

namespace Sys2Proof.Machine

/-- How a step of the model ends. -/
abbrev Result := Host.Outcome State Fault Refusal

/-! ### The image -/

/-- The cells of a byte sequence, its first byte at offset `a`. -/
def Memory.ofBytesFrom (a : Nat) : List Byte → Memory
  | [] => []
  | b :: bs => (a, b) :: Memory.ofBytesFrom (a + 1) bs

/-- The image that holds exactly these bytes, from offset 0 (R23). -/
def Memory.ofBytes (bytes : List Byte) : Memory := Memory.ofBytesFrom 0 bytes

/-- The cells list the offsets `a`, `a + 1`, … with no gap. -/
def Memory.wfFrom (a : Nat) : Memory → Bool
  | [] => true
  | (k, _) :: m => k == a && Memory.wfFrom (a + 1) m

/-- The canonical form of an image: the cells are at offsets 0 to LEN - 1, strictly rising. -/
def Memory.wf (m : Memory) : Bool := Memory.wfFrom 0 m

/-- `IMG[a]`: the byte at offset `a`, none where the offset is not addressable (R11, R50). -/
def Memory.read? (m : Memory) (a : Nat) : Option Byte :=
  match m with
  | [] => none
  | (k, b) :: rest => if k = a then some b else Memory.read? rest a

/-- `MemRead(addr, n)`: the bytes at `addr`, …, `addr + n - 1` in ascending order, none where one of
them is not addressable; no byte is read when `n = 0` (R11). -/
def Memory.memRead (m : Memory) (addr : Nat) : Nat → Option (List Byte)
  | 0 => some []
  | n + 1 =>
    match m.read? addr with
    | none => none
    | some b => (Memory.memRead m (addr + 1) n).map (b :: ·)

/-- `LEN`, the buffer length (R24). -/
def State.len (s : State) : Nat := s.img.length

/-- `fits(off, size)`: the bounds rule, the sum exact (R60). -/
def fits (off size len : Nat) : Bool := decide (off + size ≤ len)

/-! ### The end of a command -/

/-- Take the event under execution off the host's list. -/
def State.retire (s : State) : State := { s with input := s.input.tail }

/-- Deliver the command's one response and take the command off the host's list (R12). -/
def State.deliver (r : Response) (s : State) : State :=
  { s with input := s.input.tail, responses := s.responses ++ [r] }

/-- `IMG <- bytes; LEN <- n; ready <- 1` (R100). -/
def State.latch (bytes : List Byte) (s : State) : State :=
  { s with ready := true, img := Memory.ofBytes bytes }

/-- `ready <- 0; IMG <- []; LEN <- 0` (R36, R101, R180). -/
def State.clear (s : State) : State := { s with ready := false, img := [] }

/-- The response of a successful command (R12). -/
def okResponse (r0 r1 : Nat) (data : List Byte) : Response := ⟨.ok, zext32 r0, zext32 r1, data⟩

/-- The response of a failing command: no payload (R12, R160). -/
def errorResponse (e : ErrorKind) : Response := ⟨.error e, 0, 0, []⟩

/-- `respond(OK, r0, r1, data)`: end the command (R12). -/
def respond (r0 r1 : Nat) (data : List Byte) (s : State) : Result :=
  .next (s.deliver (okResponse r0 r1 data))

/-- `raise E`: taking an exception. The error is delivered in the response of the command that
raised it and nowhere else; the block's state is what it was; control goes nowhere and there is
nothing to return from (R12, R168, R169). -/
def raise (e : ErrorKind) (s : State) : Result := .next (s.deliver (errorResponse e))

/-! ### What the meanings are made of -/

/-- The state check of every accessor: `if ready = 0: raise NotDecoded` (R163). -/
def whenReady (s : State) (body : Result) : Result :=
  if s.ready then body else raise .notDecoded s

/-- Read the byte at offset `a` and go on with it; a read outside the image is a fault of the model
(R11). -/
def withByte (s : State) (a : Nat) (body : Byte → Result) : Result :=
  match s.img.read? a with
  | some b => body b
  | none => .fault (.readOutsideImage a)

/-- Answer with the view of `size` bytes from `off`: `respond(OK, off, size, MemRead(off, size))`
(43_regions.md). The caller has made the bounds check; a read outside the image is a fault of the
model (R11). -/
def respondView (off size : Nat) (s : State) : Result :=
  match s.img.memRead off size with
  | some data => respond off size data s
  | none => .fault (.readOutsideImage off)

/-- The bounds-checked view of R60: `RangeError` and nothing read unless the whole region lies in
the image. -/
def checkedView (off size : Nat) (s : State) : Result :=
  if fits off size s.len then respondView off size s else raise .rangeError s

/-- The reset event: the state of R36, no response (R180). -/
def takeResetEvent (s : State) : State := s.clear.retire

/-- A command word that is no instruction: `IllegalCommand` in either state (R165). -/
def rejectWord (s : State) : Result := raise .illegalCommand s

/-- Nothing pending: the block is idle between commands and nothing happens (R175, R190; log
entry 4). -/
def idle (s : State) : Result := .next s

/-- The host issues an event: it stands behind what is already pending (R13, R21). -/
def State.issue (e : HostEvent) (s : State) : State := { s with input := s.input ++ [e] }

/-- Put a command before everything pending, with no bulk operand (log entry 5). -/
def State.present (w : CommandWord) (s : State) : State :=
  { s with input := .command ⟨w, []⟩ :: s.input }

end Sys2Proof.Machine
end

