-- ==== Sys2Proof/Machine/Flags.lean ====
section
/-! DEFINITION. The bit-field extractor: the fields of the two header flag bytes (10_state.md R30,
R31), the values computed from header bytes (41_metadata.md), and the numbers of the status codes
(R160). The block itself has no condition codes and no flag that one operation sets for another
(R34). -/

namespace Sys2Proof.Machine

/-- `v[n]` as a Boolean (R9). -/
def bitSet (v : Byte) (n : Nat) : Bool := v.getLsbD n

/-- A Boolean result: 0 false, 1 true (D12). -/
def boolNumber (b : Bool) : Nat := if b then 1 else 0

/-- `MIR`, bit 0 of `F6` (R30). -/
def flagMir (f6 : Byte) : Bool := bitSet f6 0

/-- `BAT`, bit 1 of `F6` (R30). -/
def flagBat (f6 : Byte) : Bool := bitSet f6 1

/-- `TRN`, bit 2 of `F6` (R30). -/
def flagTrn (f6 : Byte) : Bool := bitSet f6 2

/-- `FSC`, bit 3 of `F6` (R30). -/
def flagFsc (f6 : Byte) : Bool := bitSet f6 3

/-- The mirroring mode, a closed tagged value (R112). -/
inductive MirrorMode where
  | vertical
  | horizontal
  | fourScreen
  deriving DecidableEq, Repr

/-- The number of a mode (R112, D11). -/
def MirrorMode.number : MirrorMode → Nat
  | .vertical => 0
  | .horizontal => 1
  | .fourScreen => 2

/-- The decision order of R112: the four-screen bit overrides the selector. The polarity of the
selector is the source's (R30, G2). -/
def mirrorMode (f6 : Byte) : MirrorMode :=
  if flagFsc f6 then .fourScreen else if flagMir f6 then .horizontal else .vertical

/-- The mapper number, `(F6 >> 4) | (F7 & 0xF0)` (R115). -/
def mapperNumber (f6 f7 : Byte) : Byte := (f6 >>> 4) ||| (f7 &&& 0xF0)

/-- The RAM bank count, zero normalised to one (R116). -/
def ramCount (ramb : Byte) : Nat := if ramb = 0 then 1 else ramb.toNat

/-- The code of an error (R160). -/
def ErrorKind.code : ErrorKind → BitVec 4
  | .headerMismatch => 1
  | .rangeError => 2
  | .notDecoded => 3
  | .alreadyDecoded => 4
  | .illegalCommand => 5

/-- The 4-bit status code `st` (R160). -/
def Status.code : Status → BitVec 4
  | .ok => 0
  | .error e => e.code

end Sys2Proof.Machine
end

