-- ==== Sys2Proof/Machine/Operands.lean ====
section
/-! DEFINITION. The operands of the commands and the address functions over them: the bulk operand
of `DECODE` (30_encoding.md R85), the magic comparison (R27), the region map (20_memory.md R55 to
R58), and the title's start and end (R143). All sums are exact integers (R8). -/

namespace Sys2Proof.Machine

/-- The bulk operand of the command under execution: the bytes the host presents beside it (R85).
With no command at the head there is none (log entry 15). -/
def bulkOperand (s : State) : List Byte :=
  match s.input with
  | .command c :: _ => c.bulk
  | .resetEvent :: _ => []
  | [] => []

/-- The magic test, element-wise on the first four bytes (R27, R100). -/
def magicMatches (bytes : List Byte) : Bool := bytes.take 4 == Config.magic

/-- `TRNSZ`: decided by the flag bit alone (R55). -/
def trainerBytes (f6 : Byte) : Nat := if flagTrn f6 then Config.trainerSize else 0

/-- `prg_off(i)`, defined for every `i` (R56). -/
def prgOff (f6 : Byte) (i : Nat) : Nat :=
  Config.headerSize + trainerBytes f6 + Config.prgBankSize * i

/-- `chr_off(i)`, defined for every `i`: all program banks precede all graphics banks (R57). -/
def chrOff (f6 prgn : Byte) (i : Nat) : Nat :=
  prgOff f6 prgn.toNat + Config.chrBankSize * i

/-- `TITLE0`, the nominal title offset (R58). -/
def titleNominal (f6 prgn chrn : Byte) : Nat := chrOff f6 prgn chrn.toNat

/-- The start of tile record `k` of graphics bank `b` (R59, R144). -/
def tileOff (f6 prgn : Byte) (b k : Nat) : Nat := chrOff f6 prgn b + Config.tileSize * k

/-- The title's start: exactly one marker byte `0xFF` is skipped, and it is looked at only if it
exists (R143 step 2, 90_conflicts.md C3). -/
def titleStart (m : Memory) (t0 : Nat) : Nat :=
  if t0 < m.length ∧ m.read? t0 = some 0xFF then t0 + 1 else t0

/-- The title's end: the least `q` from `p` with `IMG[q] = 0x00`, or the end of the buffer, `fuel`
bytes on (R143 step 4); none where a byte cannot be read. -/
def titleEnd (m : Memory) (p : Nat) : Nat → Option Nat
  | 0 => some p
  | fuel + 1 =>
    match m.read? p with
    | none => none
    | some b => if b = 0 then some p else titleEnd m (p + 1) fuel

end Sys2Proof.Machine
end

