-- ==== Sys2Proof/Machine/Construction.lean ====
section
/-! DEFINITION. The construction family, the magic validator: `DECODE`, `RESET`
(40_construction.md). -/

namespace Sys2Proof.Machine

/-- `DECODE` (R100). An operand longer than `LEN_MAX` has no meaning (R7; log entry 6). The state
check comes before the operation's own errors (R167), the length before the magic. -/
def execDecode (s : State) : Result :=
  let bytes := bulkOperand s
  if bulkWellFormed bytes = false then .refused .operandTooLong
  else if s.ready then raise .alreadyDecoded s
  else if bytes.length < Config.headerSize then raise .headerMismatch s
  else if magicMatches bytes then respond 0 0 [] (s.latch bytes)
  else raise .headerMismatch s

/-- `RESET` (R101): legal in both states, never fails. -/
def execReset (s : State) : Result := respond 0 0 [] s.clear

end Sys2Proof.Machine
end

