-- ==== Sys2Proof/Machine/Metadata.lean ====
section
/-! DEFINITION. The metadata family, the bit-field extractor: `PRGCNT`, `CHRCNT`, `MIRROR`,
`BATTERY`, `TRAINER`, `MAPPER`, `RAMCNT` (41_metadata.md). Each reads one or two header bytes and
returns one number in `r0`. -/

namespace Sys2Proof.Machine

/-- `PRGCNT` (R110): `PRGN` as stored. -/
def execPrgcnt (s : State) : Result :=
  whenReady s <| withByte s 4 fun prgn => respond prgn.toNat 0 [] s

/-- `CHRCNT` (R111): `CHRN` as stored. -/
def execChrcnt (s : State) : Result :=
  whenReady s <| withByte s 5 fun chrn => respond chrn.toNat 0 [] s

/-- `MIRROR` (R112). -/
def execMirror (s : State) : Result :=
  whenReady s <| withByte s 6 fun f6 => respond (mirrorMode f6).number 0 [] s

/-- `BATTERY` (R113): bit 1 of `F6`. -/
def execBattery (s : State) : Result :=
  whenReady s <| withByte s 6 fun f6 => respond (boolNumber (flagBat f6)) 0 [] s

/-- `TRAINER` (R114): bit 2 of `F6`, whatever the buffer holds. -/
def execTrainer (s : State) : Result :=
  whenReady s <| withByte s 6 fun f6 => respond (boolNumber (flagTrn f6)) 0 [] s

/-- `MAPPER` (R115). -/
def execMapper (s : State) : Result :=
  whenReady s <| withByte s 6 fun f6 => withByte s 7 fun f7 =>
    respond (mapperNumber f6 f7).toNat 0 [] s

/-- `RAMCNT` (R116). -/
def execRamcnt (s : State) : Result :=
  whenReady s <| withByte s 8 fun ramb => respond (ramCount ramb) 0 [] s

end Sys2Proof.Machine
end

