-- ==== Sys2Proof/Machine/Offsets.lean ====
section
/-! DEFINITION. The offset family, the address calculator: `PRGOFF`, `CHROFF` (42_offsets.md). Pure
arithmetic: no index check, no bounds check, never `RangeError` (R60, 90_conflicts.md C1, C2). -/

namespace Sys2Proof.Machine

/-- `PRGOFF i` (R130). It reads neither `PRGN` nor `LEN`. -/
def execPrgoff (i : BitVec 16) (s : State) : Result :=
  whenReady s <| withByte s 6 fun f6 => respond (prgOff f6 i.toNat) 0 [] s

/-- `CHROFF i` (R131). It reads neither `CHRN` nor `LEN`. -/
def execChroff (i : BitVec 16) (s : State) : Result :=
  whenReady s <| withByte s 4 fun prgn => withByte s 6 fun f6 =>
    respond (chrOff f6 prgn i.toNat) 0 [] s

end Sys2Proof.Machine
end

