-- ==== Sys2Proof/Machine/Regions.lean ====
section
/-! DEFINITION. The region family, the bounds-checked views: `PRGSLICE`, `CHRSLICE`, `TRNSLICE`,
`TITLE`, `TILE` (43_regions.md). -/

namespace Sys2Proof.Machine

/-- `PRGSLICE i` (R140): index check, then bounds check; either alone raises `RangeError`. -/
def execPrgslice (i : BitVec 16) (s : State) : Result :=
  whenReady s <| withByte s 4 fun prgn =>
    if prgn.toNat ≤ i.toNat then raise .rangeError s
    else withByte s 6 fun f6 => checkedView (prgOff f6 i.toNat) Config.prgBankSize s

/-- `CHRSLICE i` (R141): index check, then bounds check of that bank alone. -/
def execChrslice (i : BitVec 16) (s : State) : Result :=
  whenReady s <| withByte s 5 fun chrn =>
    if chrn.toNat ≤ i.toNat then raise .rangeError s
    else withByte s 6 fun f6 => withByte s 4 fun prgn =>
      checkedView (chrOff f6 prgn i.toNat) Config.chrBankSize s

/-- `TRNSLICE` (R142): the empty view at 16 when the flag is clear. -/
def execTrnslice (s : State) : Result :=
  whenReady s <| withByte s 6 fun f6 => checkedView Config.headerSize (trainerBytes f6) s

/-- `TITLE` (R143): never `RangeError`; an absent title is the empty view at its start. -/
def execTitle (s : State) : Result :=
  whenReady s <| withByte s 6 fun f6 => withByte s 4 fun prgn => withByte s 5 fun chrn =>
    let start := titleStart s.img (titleNominal f6 prgn chrn)
    if s.len ≤ start then respond start 0 [] s
    else
      match titleEnd s.img start (s.len - start) with
      | some p => respondView start (p - start) s
      | none => .fault (.readOutsideImage start)

/-- `TILE b, k` (R144): both index checks, then the bounds check of the WHOLE bank `b`. -/
def execTile (b : BitVec 8) (k : BitVec 16) (s : State) : Result :=
  whenReady s <| withByte s 5 fun chrn =>
    if chrn.toNat ≤ b.toNat then raise .rangeError s
    else if Config.tilesPerBank ≤ k.toNat then raise .rangeError s
    else withByte s 6 fun f6 => withByte s 4 fun prgn =>
      if fits (chrOff f6 prgn b.toNat) Config.chrBankSize s.len then
        respondView (tileOff f6 prgn b.toNat k.toNat) Config.tileSize s
      else raise .rangeError s

end Sys2Proof.Machine
end

