-- ==== Sys2Proof/Machine/Dispatch.lean ====
section
/-! DEFINITION. The meaning of every command: one arm per constructor of Instr. -/

namespace Sys2Proof.Machine

def exec (i : Instr) (s : State) : Host.Outcome State Fault Refusal :=
  match i with
  -- the construction family
  | .decode => Sys2Proof.Machine.execDecode s
  | .reset => Sys2Proof.Machine.execReset s
  -- the metadata family
  | .prgcnt => Sys2Proof.Machine.execPrgcnt s
  | .chrcnt => Sys2Proof.Machine.execChrcnt s
  | .mirror => Sys2Proof.Machine.execMirror s
  | .battery => Sys2Proof.Machine.execBattery s
  | .trainer => Sys2Proof.Machine.execTrainer s
  | .mapper => Sys2Proof.Machine.execMapper s
  | .ramcnt => Sys2Proof.Machine.execRamcnt s
  -- the offset family
  | .prgoff n => Sys2Proof.Machine.execPrgoff n s
  | .chroff n => Sys2Proof.Machine.execChroff n s
  -- the region family
  | .prgslice n => Sys2Proof.Machine.execPrgslice n s
  | .chrslice n => Sys2Proof.Machine.execChrslice n s
  | .trnslice => Sys2Proof.Machine.execTrnslice s
  | .title => Sys2Proof.Machine.execTitle s
  | .tile b k => Sys2Proof.Machine.execTile b k s

end Sys2Proof.Machine
end

