-- ==== Sys2Proof/Machine/Step.lean ====
section
/-! DEFINITION. One step of the machine: the host's next pending event, executed whole (00_scope.md
R13). The word is decoded before anything else is looked at (R167). -/

namespace Sys2Proof.Machine

/-- One step. With nothing pending the block is idle (log entry 4). The command under execution
stays at the head of `input`, where its bulk operand is read, until it is answered. -/
def step (s : State) : Host.Outcome State Fault Refusal :=
  match s.input with
  | [] => idle s
  | .resetEvent :: _ => .next (takeResetEvent s)
  | .command c :: _ =>
    match decode c.word with
    | .instr i => exec i s
    | .illegalOpcode => rejectWord s
    | .reservedBits => rejectWord s

/-- The state in which the next step executes this word: the host issues it before everything
pending, with no bulk operand (log entries 2, 5). -/
def State.withFetchWord (s : State) (nbits w : Nat) : State := s.present (tableWord nbits w)

end Sys2Proof.Machine
end

