-- ==== Sys2Proof/Machine/Pseudo.lean ====
section
/-! DEFINITION. The pseudo-instructions `DESCRIBE` and `TILES` (30_encoding.md R91, R92). They are
no commands of the block: each expands to a list of commands that the host issues. -/

namespace Sys2Proof.Machine

/-- `DESCRIBE`: the eight commands of R91, in its order. -/
def describe : List Instr :=
  [.prgcnt, .chrcnt, .title, .mirror, .battery, .trainer, .mapper, .ramcnt]

/-- The commands `TILE b, k` for every record `k` of graphics bank `b`, ascending (R92). -/
def tilesOfBank (b : Nat) : List Instr :=
  (List.range Config.tilesPerBank).map fun k => .tile (BitVec.ofNat 8 b) (BitVec.ofNat 16 k)

/-- `TILES`: every record of every graphics bank in order, the upper end excluded
(R92, 90_conflicts.md C5). The host has obtained `chrn` with `CHRCNT`. -/
def tiles (chrn : Byte) : List Instr := (List.range chrn.toNat).flatMap tilesOfBank

/-- The host issues these instructions first to last, none with a bulk operand (R21). -/
def program (is : List Instr) : List HostEvent := is.map fun i => .command ⟨encode i, []⟩

end Sys2Proof.Machine
end

