-- ==== Sys2Proof/Machine/Assembler.lean ====
section
/-! DEFINITION. The assembler syntax of 30_encoding.md rule R90: one command a line, the mnemonic in
capitals and its operands in decimal or `0x` hexadecimal separated by a comma, a `;` comment to the
end of the line, and the source's function names in call syntax as aliases (R86). The two
pseudo-instructions are lines too (R91, R92). What R90 leaves open of the lexical form is log
entry 13. -/

namespace Sys2Proof.Machine

/-- A token of a line. -/
inductive AsmToken where
  | word (cs : List Char)
  | comma
  | openParen
  | closeParen
  deriving DecidableEq, Repr

/-- A command a line stands for; `DECODE` carries the name of the buffer it is given (R90). -/
structure AsmCommand where
  instr : Instr
  buffer : Option String
  deriving DecidableEq, Repr

/-- The line without its comment: a `;` starts one (R90). -/
def withoutComment : List Char → List Char
  | [] => []
  | c :: cs => if c = ';' then [] else c :: withoutComment cs

/-- A character of a name or number (log entry 13). -/
def isWordChar (c : Char) : Bool := c.isAlphanum || c == '_' || c == ':'

/-- End the word being read, if there is one. -/
def endWord (cur : List Char) (ts : List AsmToken) : List AsmToken :=
  if cur = [] then ts else .word cur :: ts

/-- The tokens of a line whose current word so far is `cur`; none at a character that has no place
in the syntax. -/
def tokensFrom (cur : List Char) : List Char → Option (List AsmToken)
  | [] => some (endWord cur [])
  | c :: cs =>
    if c = ' ' ∨ c = '\t' then (tokensFrom [] cs).map (endWord cur)
    else if c = ',' then (tokensFrom [] cs).map fun ts => endWord cur (.comma :: ts)
    else if c = '(' then (tokensFrom [] cs).map fun ts => endWord cur (.openParen :: ts)
    else if c = ')' then (tokensFrom [] cs).map fun ts => endWord cur (.closeParen :: ts)
    else if isWordChar c then tokensFrom (cur ++ [c]) cs
    else none

/-- The value of a digit, `0` to `9` and `a` to `f` in either case (log entry 13). -/
def digitValue (c : Char) : Option Nat :=
  if '0' ≤ c ∧ c ≤ '9' then some (c.toNat - '0'.toNat)
  else if 'a' ≤ c ∧ c ≤ 'f' then some (c.toNat - 'a'.toNat + 10)
  else if 'A' ≤ c ∧ c ≤ 'F' then some (c.toNat - 'A'.toNat + 10)
  else none

/-- Digits in a base, most significant first, after the value `acc`. -/
def digitsFrom (base acc : Nat) : List Char → Option Nat
  | [] => some acc
  | c :: cs =>
    match digitValue c with
    | none => none
    | some d => if d < base then digitsFrom base (acc * base + d) cs else none

/-- A number: decimal, or hexadecimal after `0x` (R10, R90). -/
def asmNumber (cs : List Char) : Option Nat :=
  match cs with
  | [] => none
  | ['0', 'x'] => none
  | '0' :: 'x' :: ds => digitsFrom 16 0 ds
  | ds => digitsFrom 10 0 ds

/-- A 16-bit operand; a larger number cannot be written (R84). -/
def asmIndex16 (cs : List Char) : Option (BitVec 16) :=
  match asmNumber cs with
  | some n => if n < 2 ^ 16 then some (BitVec.ofNat 16 n) else none
  | none => none

/-- An 8-bit operand; a larger number cannot be written (R84). -/
def asmIndex8 (cs : List Char) : Option (BitVec 8) :=
  match asmNumber cs with
  | some n => if n < 2 ^ 8 then some (BitVec.ofNat 8 n) else none
  | none => none

/-- The operands of the mnemonic form: none, one, or two separated by a comma. -/
def mnemonicOperands : List AsmToken → Option (List (List Char))
  | [] => some []
  | [.word a] => some [a]
  | [.word a, .comma, .word b] => some [a, b]
  | _ => none

/-- The operands of the call form: none or one, in parentheses. -/
def callOperands : List AsmToken → Option (List (List Char))
  | [.openParen, .closeParen] => some []
  | [.openParen, .word a, .closeParen] => some [a]
  | _ => none

/-- One command with no buffer. -/
def plainCommand (i : Instr) : List AsmCommand := [⟨i, none⟩]

/-- A command with no operand. -/
def asmFormatN (i : Instr) : List (List Char) → Option (List AsmCommand)
  | [] => some (plainCommand i)
  | _ => none

/-- A command with one bank index. -/
def asmFormatI (mk : BitVec 16 → Instr) : List (List Char) → Option (List AsmCommand)
  | [a] => (asmIndex16 a).map fun i => plainCommand (mk i)
  | _ => none

/-- `TILE b, k`: bank first, record second (R90). -/
def asmTile : List (List Char) → Option (List AsmCommand)
  | [b, k] =>
    match asmIndex8 b, asmIndex16 k with
    | some b, some k => some (plainCommand (.tile b k))
    | _, _ => none
  | _ => none

/-- `DECODE` with the name of its buffer (R90). -/
def asmDecode : List (List Char) → Option (List AsmCommand)
  | [buffer] => some [⟨.decode, some (String.ofList buffer)⟩]
  | _ => none

/-- A pseudo-instruction: a list of commands, no operand. -/
def asmPseudo (is : List Instr) : List (List Char) → Option (List AsmCommand)
  | [] => some (is.flatMap plainCommand)
  | _ => none

/-- A mnemonic of R86, or a pseudo-instruction of R91 and R92, with its operands. `chrn` is the
graphics bank count the host has obtained for `TILES`. -/
def asmMnemonic (chrn : Byte) (name : String) (args : List (List Char)) :
    Option (List AsmCommand) :=
  match name with
  | "DECODE" => asmDecode args
  | "RESET" => asmFormatN .reset args
  | "PRGCNT" => asmFormatN .prgcnt args
  | "CHRCNT" => asmFormatN .chrcnt args
  | "MIRROR" => asmFormatN .mirror args
  | "BATTERY" => asmFormatN .battery args
  | "TRAINER" => asmFormatN .trainer args
  | "MAPPER" => asmFormatN .mapper args
  | "RAMCNT" => asmFormatN .ramcnt args
  | "PRGOFF" => asmFormatI .prgoff args
  | "CHROFF" => asmFormatI .chroff args
  | "PRGSLICE" => asmFormatI .prgslice args
  | "CHRSLICE" => asmFormatI .chrslice args
  | "TRNSLICE" => asmFormatN .trnslice args
  | "TITLE" => asmFormatN .title args
  | "TILE" => asmTile args
  | "DESCRIBE" => asmPseudo describe args
  | "TILES" => asmPseudo (tiles chrn) args
  | _ => none

/-- A function name of the source, an alias of the mnemonic it implements (R86, R90). -/
def asmAlias (name : String) (args : List (List Char)) : Option (List AsmCommand) :=
  match name with
  | "decode" => asmDecode args
  | "ImageDecoder::new" => asmDecode args
  | "prg_bank_count" => asmFormatN .prgcnt args
  | "chr_bank_count" => asmFormatN .chrcnt args
  | "mirror_mode" => asmFormatN .mirror args
  | "battery_backed_ram" => asmFormatN .battery args
  | "has_trainer" => asmFormatN .trainer args
  | "mapper_number" => asmFormatN .mapper args
  | "ram_bank_count" => asmFormatN .ramcnt args
  | "prg_bank_offset" => asmFormatI .prgoff args
  | "chr_bank_offset" => asmFormatI .chroff args
  | "prg_bank_slice" => asmFormatI .prgslice args
  | "chr_bank_slice" => asmFormatI .chrslice args
  | "title" => asmFormatN .title args
  | _ => none

/-- A line's tokens as commands: the mnemonic form or the call form; an empty line stands for
none. -/
def asmTokens (chrn : Byte) : List AsmToken → Option (List AsmCommand)
  | [] => some []
  | .word name :: rest =>
    match mnemonicOperands rest, callOperands rest with
    | some args, _ => asmMnemonic chrn (String.ofList name) args
    | none, some args => asmAlias (String.ofList name) args
    | none, none => none
  | _ => none

/-- The commands a line of assembler stands for (R90); none where the line is not of the syntax. -/
def assembleLine (chrn : Byte) (line : List Char) : Option (List AsmCommand) :=
  match tokensFrom [] (withoutComment line) with
  | some ts => asmTokens chrn ts
  | none => none

end Sys2Proof.Machine
end

