-- ==== Sys2Proof/Safety.lean ====
section
/-! DEFINITION. What counts as a safe run: the state invariant of 10_state.md R25, what the host may
have pending (R7, R85), and the ways a command ends when it answers a next state. -/

namespace Sys2Proof.Machine

/-- The invariant of R25 (a) and (b), with what the model adds for its own representation: the image
is in canonical form and no longer than `LEN_MAX` (R24). -/
abbrev StateInv (s : State) : Prop :=
  s.img.wf = true ∧ s.len ≤ Config.lenMax ∧
    (s.ready = false → s.img = []) ∧
    (s.ready = true → Config.headerSize ≤ s.len ∧ s.img.memRead 0 4 = some Config.magic)

/-- An event the host can present: a command's bulk operand has at most `LEN_MAX` bytes (R7, R85). -/
def HostEvent.presentable : HostEvent → Bool
  | .command c => bulkWellFormed c.bulk
  | .resetEvent => true

/-- Everything pending can be presented. -/
abbrev InputPresentable (s : State) : Prop := s.input.all HostEvent.presentable = true

/-- The number of commands among these events; the reset event is none (R180). -/
def commandCount : List HostEvent → Nat
  | [] => 0
  | .command _ :: rest => commandCount rest + 1
  | .resetEvent :: rest => commandCount rest

/-! ### The ways a command ends, with its whole frame

Each says that `exec i s` answers a next state and gives every field of it: the block's `ready` and
`img` as they were, the command off the host's list, and one response more. -/

/-- The command answers exactly this response and leaves the block as it was. -/
def Answers (i : Instr) (s : State) (r : Response) : Prop :=
  exec i s = .next
    { ready := s.ready, img := s.img, input := s.input.tail, responses := s.responses ++ [r] }

/-- The command answers `(OK, n, 0, [])`, `r0` being the exact number `n` (R8, R12). -/
def AnswersNumber (i : Instr) (s : State) (n : Nat) : Prop :=
  ∃ v : Value, v.toNat = n ∧ Answers i s ⟨.ok, v, 0, []⟩

/-- The command answers `(OK, off, size, MemRead(off, size))`: the numbers exact, and `data` the
`size` bytes of the image at `off`, `off + 1`, … (R52). -/
def AnswersView (i : Instr) (s : State) (off size : Nat) : Prop :=
  ∃ (v0 v1 : Value) (data : List Byte), v0.toNat = off ∧ v1.toNat = size ∧ data.length = size ∧
    (∀ j, j < size → ∃ b, s.img.read? (off + j) = some b ∧ data[j]? = some b) ∧
    Answers i s ⟨.ok, v0, v1, data⟩

/-- The command answers `(E, 0, 0, [])` (R12, R168). -/
def AnswersError (i : Instr) (s : State) (e : ErrorKind) : Prop :=
  Answers i s ⟨.error e, 0, 0, []⟩

/-- The commands that can raise `RangeError` (R162). -/
def canRaiseRangeError : Instr → Bool
  | .decode => false
  | .reset => false
  | .prgcnt => false
  | .chrcnt => false
  | .mirror => false
  | .battery => false
  | .trainer => false
  | .mapper => false
  | .ramcnt => false
  | .prgoff _ => false
  | .chroff _ => false
  | .prgslice _ => true
  | .chrslice _ => true
  | .trnslice => true
  | .title => false
  | .tile _ _ => true

end Sys2Proof.Machine
end

