-- ==== Sys2Proof/Certificates/Slice0/Obligations.lean ====
section
/-! DEFINITION. The statements for the provers. In the sizes, `Config.prgBankSize` and
`Config.chrBankSize` are the OPEN parameters of 00_scope.md R6: every statement holds for every legal
pair. `StateInv` is the invariant of 10_state.md R25, stated on its own below. -/

open Sys2Proof Sys2Proof.Machine

/-! ### Encoding -/

/-- Decoding the word of an instruction gives the instruction back, every operand at every value
(R81 to R86). -/
def Obligations.DecodingAnEncodedInstructionGivesItBack : Prop :=
  ∀ i : Instr, decode (encode i) = .instr i

/-- A word that decodes to an instruction is that instruction's one word (R80, R88). -/
def Obligations.EveryLegalWordIsTheEncodingOfItsInstruction : Prop :=
  ∀ (w : CommandWord) (i : Instr), decode w = .instr i → encode i = w

/-- The decoder accepts a word exactly when it matches a row of the opcode map, and then gives the
instruction of that row (R86). -/
def Obligations.DecoderAcceptsExactlyTheOpcodeMap : Prop :=
  ∀ w : CommandWord,
    (∀ i, decode w = .instr i → ∃ r ∈ opcodeRows, w &&& r.mask = r.pattern ∧
      r.mnemonic = i.mnemonic) ∧
    (∀ r ∈ opcodeRows, w &&& r.mask = r.pattern → ∃ i, decode w = .instr i ∧
      i.mnemonic = r.mnemonic)

/-- No word matches two rows of the opcode map (R86). -/
def Obligations.NoWordMatchesTwoRows : Prop :=
  ∀ (w : CommandWord), ∀ r ∈ opcodeRows, ∀ r' ∈ opcodeRows,
    w &&& r.mask = r.pattern → w &&& r'.mask = r'.pattern → r = r'

/-- Words written out from R81 to R86 decode to what they stand for, and malformed ones to
nothing. -/
def Obligations.SampleWordsDecodeAsTheSpecEncodesThem : Prop :=
  decode 0x01000000 = .instr .decode ∧ decode 0x02000000 = .instr .reset ∧
    decode 0x16000000 = .instr .ramcnt ∧ decode 0x2000FFFF = .instr (.prgoff 65535) ∧
    decode 0x21001234 = .instr (.chroff 4660) ∧ decode 0x22000100 = .instr (.prgslice 256) ∧
    decode 0x24000000 = .instr .trnslice ∧ decode 0x26000203 = .instr (.tile 3 2) ∧
    decode 0x2601FF00 = .instr (.tile 0 511) ∧ decode 0x17000000 = .illegalOpcode ∧
    decode 0x10800000 = .reservedBits ∧ decode 0x20010000 = .reservedBits

/-! ### The step, reset, and the whole machine -/

/-- When the word of the command at the head decodes, the step is the execution of that instruction
at that state; the command is still at the head, where its bulk operand is (R13, R85). -/
def Obligations.AStepExecutesTheDecodedCommand : Prop :=
  ∀ (s : State) (c : Command) (rest : List HostEvent) (i : Instr),
    s.input = .command c :: rest → decode c.word = .instr i → step s = exec i s

/-- A command word that matches no row of the opcode map raises `IllegalCommand` in either state and
changes nothing (R165). -/
def Obligations.AWordThatMatchesNoRowRaisesIllegalCommand : Prop :=
  ∀ (s : State) (c : Command) (rest : List HostEvent), s.input = .command c :: rest →
    (∀ r ∈ opcodeRows, c.word &&& r.mask ≠ r.pattern) →
    step s = .next { ready := s.ready, img := s.img, input := rest,
                     responses := s.responses ++ [⟨.error .illegalCommand, 0, 0, []⟩] }

/-- The illegal words by their fields: an unassigned opcode byte in the ranges of R87, or an assigned
one with its format's reserved bits not zero, R88. Such a word matches no row and raises
`IllegalCommand` in either state. -/
def Obligations.UnassignedOpcodesAndReservedBitsRaiseIllegalCommand : Prop :=
  ∀ (s : State) (c : Command) (rest : List HostEvent) (op : Nat), s.input = .command c :: rest →
    c.word.toNat / 2 ^ 24 = op →
    (op = 0x00 ∨ (0x03 ≤ op ∧ op ≤ 0x0F) ∨ (0x17 ≤ op ∧ op ≤ 0x1F) ∨ (0x27 ≤ op ∧ op ≤ 0xFF) ∨
     (op ∈ [0x01, 0x02, 0x10, 0x11, 0x12, 0x13, 0x14, 0x15, 0x16, 0x24, 0x25] ∧
       c.word.toNat % 2 ^ 24 ≠ 0) ∨
     (op ∈ [0x20, 0x21, 0x22, 0x23] ∧ c.word.toNat / 2 ^ 16 % 2 ^ 8 ≠ 0)) →
    (∀ r ∈ opcodeRows, c.word &&& r.mask ≠ r.pattern) ∧
    step s = .next { ready := s.ready, img := s.img, input := rest,
                     responses := s.responses ++ [⟨.error .illegalCommand, 0, 0, []⟩] }

/-- The reset event: the state of R36 and no response; the same `ready` and image as the `RESET`
command leaves (R180). That the host's other pending events and the responses already given stay is
the model's choice (log entry 12). -/
def Obligations.TheResetEventClearsTheBlockWithoutAResponse : Prop :=
  ∀ (s : State) (rest : List HostEvent), s.input = .resetEvent :: rest →
    ∃ t u, step s = .next t ∧ t.ready = false ∧ t.img = [] ∧ t.len = 0 ∧ t.input = rest ∧
      t.responses = s.responses ∧
      exec .reset s = .next u ∧ u.ready = t.ready ∧ u.img = t.img

/-- With nothing pending a step changes nothing: the model's choice (log entry 4; R175, R190). -/
def Obligations.WithNothingPendingAStepChangesNothing : Prop :=
  ∀ s : State, s.input = [] → step s = .next s

/-- The state after reset, after the reset event and after a `RESET` command (R36). -/
def Obligations.ResetLeavesIdleWithNoImage : Prop :=
  (State.reset.ready = false ∧ State.reset.img = [] ∧ State.reset.len = 0) ∧
  (∀ (s : State) (rest : List HostEvent), s.input = .resetEvent :: rest →
    ∃ t, step s = .next t ∧ t.ready = false ∧ t.img = [] ∧ t.len = 0) ∧
  (∀ (s : State) (c : Command) (rest : List HostEvent), s.input = .command c :: rest →
    c.word = 0x02000000 → ∃ t, step s = .next t ∧ t.ready = false ∧ t.img = [] ∧ t.len = 0)

/-- The invariant of R25 holds at reset. -/
def Obligations.TheStateInvariantHoldsAtReset : Prop := StateInv State.reset

/-- R25, whole: from every state that meets (a) and (b), whatever the host has pending, a step gives
a state that meets them, and (c) the image does not change while `ready` stays 1. `StateInv` holds besides
the canonical form of the model's own representation of `IMG` (log entry 8) and R24's bound. -/
def Obligations.EveryStepKeepsTheStateInvariant : Prop :=
  ∀ s t : State, StateInv s → step s = .next t →
    StateInv t ∧ (t.ready = false → t.img = [] ∧ t.len = 0) ∧
    (t.ready = true → 16 ≤ t.len ∧ ∀ j < 4, t.img.read? j = Config.magic[j]?) ∧
    (s.ready = true → t.ready = true → t.img = s.img ∧ t.len = s.len)

/-- The only writers of `ready` and `IMG`, over all states: a `DECODE` in Idle, which latches its
whole operand, and `RESET` and the reset event, which clear (R22, R23, R51). -/
def Obligations.OnlyDecodeAndResetWriteTheBlock : Prop :=
  ∀ s t : State, step s = .next t →
    (t.ready = s.ready ∧ t.img = s.img) ∨
    (∃ c rest, s.input = .command c :: rest ∧ decode c.word = .instr .decode ∧
      s.ready = false ∧ t.ready = true ∧ t.img.length = c.bulk.length ∧
      ∀ a, t.img.read? a = c.bulk[a]?) ∨
    (∃ e rest, s.input = e :: rest ∧
      (e = .resetEvent ∨ ∃ c, e = .command c ∧ decode c.word = .instr .reset) ∧
      t.ready = false ∧ t.img = [])

/-- The block never halts and never faults: from a state that meets the invariant, with everything
pending presentable (R7), a step always answers a next state, and it is such a state again
(R186, R190). -/
def Obligations.AStepFromTheInvariantAlwaysAnswers : Prop :=
  ∀ s : State, StateInv s → InputPresentable s → ∃ t, step s = .next t ∧ StateInv t ∧ InputPresentable t

/-- A run: as many steps as there are events pending leave nothing pending, the invariant, and
exactly one response for each command, none for a reset event (R12, R186, R190). -/
def Obligations.ARunAnswersEveryCommandExactlyOnce : Prop :=
  ∀ s : State, StateInv s → InputPresentable s →
    ∃ (t : State) (rs : List Response), core.run s.input.length s = .next t ∧ StateInv t ∧
      t.input = [] ∧ t.responses = s.responses ++ rs ∧ rs.length = commandCount s.input

/-- A step reads no response given before and nothing pending behind its own event (R13, R20). -/
def Obligations.AStepReadsOnlyItsOwnEvent : Prop :=
  ∀ (ready : Bool) (img : Memory) (e : HostEvent) (rest rest' : List HostEvent)
    (rs rs' : List Response) (t : State), step ⟨ready, img, e :: rest, rs⟩ = .next t →
    ∃ new, t.input = rest ∧ t.responses = rs ++ new ∧
      step ⟨ready, img, e :: rest', rs'⟩ = .next ⟨t.ready, t.img, rest', rs' ++ new⟩

/-! ### Errors, purity, and what no result depends on -/

/-- Every command answers exactly one response; an error is the response `(code, 0, 0, [])` and
nothing else: `ready`, `IMG` and `LEN` are what they were (R12, R168). -/
def Obligations.EveryCommandAnswersOnceAndErrorsChangeNothing : Prop :=
  ∀ (s t : State) (c : Command) (rest : List HostEvent), s.input = .command c :: rest →
    step s = .next t →
    ∃ r : Response, t.input = rest ∧ t.responses = s.responses ++ [r] ∧
      ∀ e, r.st = .error e →
        r.r0 = 0 ∧ r.r1 = 0 ∧ r.data = [] ∧ t.ready = s.ready ∧ t.img = s.img ∧ t.len = s.len

/-- R169: the event after an error runs exactly as if the failing command had not been issued: it
answers the same and leaves the same block. -/
def Obligations.AfterAnErrorTheNextEventRunsAsIfNothingHadFailed : Prop :=
  ∀ (s t u : State) (c : Command) (e : HostEvent) (rest : List HostEvent) (k : ErrorKind),
    s.input = .command c :: e :: rest → step s = .next t →
    t.responses = s.responses ++ [⟨.error k, 0, 0, []⟩] → step t = .next u →
    ∃ new, u.responses = t.responses ++ new ∧
      step ⟨s.ready, s.img, e :: rest, s.responses⟩ =
        .next ⟨u.ready, u.img, u.input, s.responses ++ new⟩

/-- R14: in state Ready every operation other than `RESET` changes no state, and two executions with
the same operands on the same image return the same response. (An operand that cannot be presented
is no operand, R7.) -/
def Obligations.InReadyEveryCommandButResetIsPure : Prop :=
  ∀ (i : Instr) (s u t : State), i ≠ .reset → s.ready = true → u.ready = true → u.img = s.img →
    (bulkOperand u).length ≤ Config.lenMax → exec i s = .next t →
    t.ready = true ∧ t.img = s.img ∧
    ∃ r v, t.responses = s.responses ++ [r] ∧ exec i u = .next v ∧ v.ready = true ∧
      v.img = u.img ∧ v.responses = u.responses ++ [r]

/-- No result depends on header bytes 9 to 15 or on bits 3:0 of byte 7: two Ready images that differ
in nothing else give the same response to every command (R31, R33). -/
def Obligations.NoResultDependsOnTheUnusedHeaderBits : Prop :=
  ∀ (i : Instr) (s u t : State), StateInv s → StateInv u → s.ready = true → u.ready = true →
    u.len = s.len →
    (∀ a, ¬ (9 ≤ a ∧ a ≤ 15) → a ≠ 7 → u.img.read? a = s.img.read? a) →
    (∀ b b', s.img.read? 7 = some b → u.img.read? 7 = some b' →
      b'.toNat / 16 = b.toNat / 16) →
    (bulkOperand u).length ≤ Config.lenMax → exec i s = .next t →
    ∃ r v, t.responses = s.responses ++ [r] ∧ exec i u = .next v ∧
      v.responses = u.responses ++ [r]

/-- Every accessor in state Idle raises `NotDecoded` (R163). -/
def Obligations.AccessorsInIdleRaiseNotDecoded : Prop :=
  ∀ (i : Instr) (s : State), i ≠ .decode → i ≠ .reset → s.ready = false →
    AnswersError i s .notDecoded

/-- The status a well-formed command can return, by command and state: no others (R170). -/
def Obligations.EveryStatusIsOneTheStatusMatrixAllows : Prop :=
  ∀ (i : Instr) (s t : State) (r : Response), exec i s = .next t →
    t.responses = s.responses ++ [r] →
    (i = .decode → s.ready = false → r.st = .ok ∨ r.st = .error .headerMismatch) ∧
    (i = .decode → s.ready = true → r.st = .error .alreadyDecoded) ∧
    (i = .reset → r.st = .ok) ∧
    (i.isAccessor = true → s.ready = false → r.st = .error .notDecoded) ∧
    (i.isAccessor = true → s.ready = true → canRaiseRangeError i = true →
      r.st = .ok ∨ r.st = .error .rangeError) ∧
    (i.isAccessor = true → s.ready = true → canRaiseRangeError i = false → r.st = .ok)

/-- The status codes (R160): six values of the four bits, all different, `OK` 0. -/
def Obligations.StatusCodesAreTheSpecsNumbers : Prop :=
  (Status.code .ok).toNat = 0 ∧ (Status.code (.error .headerMismatch)).toNat = 1 ∧
    (Status.code (.error .rangeError)).toNat = 2 ∧ (Status.code (.error .notDecoded)).toNat = 3 ∧
    (Status.code (.error .alreadyDecoded)).toNat = 4 ∧
    (Status.code (.error .illegalCommand)).toNat = 5 ∧
    (∀ a b : Status, a.code = b.code → a = b)

/-- Every delivered byte is a byte of the image: of any `OK` response, `data` holds `r1` bytes, and
byte `j` of it is `IMG[r0 + j]`; a view that is not empty lies inside the buffer (R52, R60). -/
def Obligations.EveryViewDeliversTheImagesOwnBytes : Prop :=
  ∀ (i : Instr) (s t : State) (r : Response), StateInv s → exec i s = .next t →
    t.responses = s.responses ++ [r] → r.st = .ok →
    r.data.length = r.r1.toNat ∧
    (∀ j, j < r.r1.toNat → r.data[j]? = s.img.read? (r.r0.toNat + j)) ∧
    (r.r1 ≠ 0 → r.r0.toNat + r.r1.toNat ≤ s.len)

/-! ### The image and the address functions -/

/-- `MemRead(addr, n)` answers exactly inside the image (or for `n = 0`), and then the `n` bytes from
`addr` in ascending order (R11). -/
def Obligations.MemReadAnswersExactlyInsideTheImage : Prop :=
  ∀ (m : Memory) (addr n : Nat), m.wf = true →
    ((∃ d, m.memRead addr n = some d) ↔ (n = 0 ∨ addr + n ≤ m.length)) ∧
    ∀ d, m.memRead addr n = some d → d.length = n ∧ ∀ j, j < n → d[j]? = m.read? (addr + j)

/-- The bank sizes in force meet the constraints of R6 and R8, and under them every offset and end of
region the rules compute, for every operand, is below 2^32 (R8). -/
def Obligations.EveryComputedOffsetIsBelowTwoToThe32 : Prop :=
  Config.LegalSizes Config.prgBankSize Config.chrBankSize ∧
  ∀ (f6 prgn chrn b : Byte) (i k : BitVec 16),
    prgOff f6 i.toNat + Config.prgBankSize < 2 ^ 32 ∧
    chrOff f6 prgn i.toNat + Config.chrBankSize < 2 ^ 32 ∧
    titleNominal f6 prgn chrn + 1 < 2 ^ 32 ∧ tileOff f6 prgn b.toNat k.toNat + 16 < 2 ^ 32

/-- The region map has no gap and no overlap: the trainer ends where program bank 0 starts, each bank
ends where the next starts, graphics banks follow program banks, the title follows the last, and the
last tile record of a bank ends with the bank (R55 to R59, R144). -/
def Obligations.TheRegionsOfTheMapFollowOneAnother : Prop :=
  ∀ (f6 prgn chrn : Byte) (i : Nat),
    prgOff f6 0 = 16 + trainerBytes f6 ∧
    prgOff f6 (i + 1) = prgOff f6 i + Config.prgBankSize ∧
    chrOff f6 prgn 0 = prgOff f6 prgn.toNat ∧
    chrOff f6 prgn (i + 1) = chrOff f6 prgn i + Config.chrBankSize ∧
    titleNominal f6 prgn chrn = chrOff f6 prgn chrn.toNat ∧
    tileOff f6 prgn i 0 = chrOff f6 prgn i ∧
    tileOff f6 prgn i (Config.tilesPerBank - 1) + 16 = chrOff f6 prgn (i + 1)

/-! ### The construction family -/

/-- R100, whole: in Idle, an operand of at least 16 bytes that begins with the magic is latched
whole, whatever the rest of it holds; a shorter one or another beginning is `HeaderMismatch` with
nothing latched; in Ready, `AlreadyDecoded` with nothing changed. (An operand longer than `LEN_MAX`
cannot be presented, R7.) -/
def Obligations.DecodeLatchesAValidImageAndNothingElse : Prop :=
  ∀ (s : State) (c : Command) (rest : List HostEvent), s.input = .command c :: rest →
    c.bulk.length ≤ Config.lenMax →
    (s.ready = false → 16 ≤ c.bulk.length → c.bulk.take 4 = [0x4E, 0x45, 0x53, 0x1A] →
      ∃ m : Memory, m.wf = true ∧ m.length = c.bulk.length ∧ (∀ a, m.read? a = c.bulk[a]?) ∧
        exec .decode s = .next { ready := true, img := m, input := rest,
                                 responses := s.responses ++ [⟨.ok, 0, 0, []⟩] }) ∧
    (s.ready = false → (c.bulk.length < 16 ∨ c.bulk.take 4 ≠ [0x4E, 0x45, 0x53, 0x1A]) →
      AnswersError .decode s .headerMismatch) ∧
    (s.ready = true → AnswersError .decode s .alreadyDecoded)

/-- `DECODE` with more than `LEN_MAX` bytes has no meaning (R7, U12). That the model refuses it
before it looks at `ready` is its own choice (log entry 6). -/
def Obligations.DecodeOfAnOverlongOperandIsRefused : Prop :=
  ∀ (s : State) (c : Command) (rest : List HostEvent), s.input = .command c :: rest →
    2 ^ 32 ≤ c.bulk.length → exec .decode s = .refused .operandTooLong

/-- R101: `RESET` in any state returns the block to Idle and answers `(OK, 0, 0, [])`. -/
def Obligations.ResetReturnsTheBlockToIdle : Prop :=
  ∀ s : State, exec .reset s =
    .next { ready := false, img := [], input := s.input.tail,
            responses := s.responses ++ [⟨.ok, 0, 0, []⟩] }

/-! ### The metadata family -/

/-- R110: `PRGCNT` in Ready answers byte 4 as stored. -/
def Obligations.PrgcntAnswersByteFour : Prop :=
  ∀ s : State, StateInv s → s.ready = true →
    ∃ b, s.img.read? 4 = some b ∧ Answers .prgcnt s ⟨.ok, b.setWidth 32, 0, []⟩

/-- R111: `CHRCNT` in Ready answers byte 5 as stored. -/
def Obligations.ChrcntAnswersByteFive : Prop :=
  ∀ s : State, StateInv s → s.ready = true →
    ∃ b, s.img.read? 5 = some b ∧ Answers .chrcnt s ⟨.ok, b.setWidth 32, 0, []⟩

/-- R112: `MIRROR` by the truth table over bits 3 and 0 of byte 6: four-screen 2 whenever bit 3 is
set, else bit 0. -/
def Obligations.MirrorFollowsItsTruthTable : Prop :=
  ∀ s : State, StateInv s → s.ready = true →
    ∃ b, s.img.read? 6 = some b ∧
      AnswersNumber .mirror s (if b.toNat / 8 % 2 = 1 then 2 else b.toNat % 2)

/-- R113: `BATTERY` answers bit 1 of byte 6. -/
def Obligations.BatteryAnswersBitOneOfByteSix : Prop :=
  ∀ s : State, StateInv s → s.ready = true →
    ∃ b, s.img.read? 6 = some b ∧ AnswersNumber .battery s (b.toNat / 2 % 2)

/-- R114: `TRAINER` answers bit 2 of byte 6, and every program, graphics and title offset is 512
times that number greater. -/
def Obligations.TrainerAnswersTheBitThatMovesEveryOffset : Prop :=
  ∀ s : State, StateInv s → s.ready = true →
    ∃ b, s.img.read? 6 = some b ∧ AnswersNumber .trainer s (b.toNat / 4 % 2) ∧
      ∀ (prgn chrn : Byte) (i : Nat),
        prgOff b i = 16 + Config.prgBankSize * i + 512 * (b.toNat / 4 % 2) ∧
        chrOff b prgn i = 16 + Config.prgBankSize * prgn.toNat + Config.chrBankSize * i
          + 512 * (b.toNat / 4 % 2) ∧
        titleNominal b prgn chrn = 16 + Config.prgBankSize * prgn.toNat
          + Config.chrBankSize * chrn.toNat + 512 * (b.toNat / 4 % 2)

/-- R115: `MAPPER` answers the byte made of the upper nibble of byte 7 above the upper nibble of
byte 6; the low nibbles have no effect. -/
def Obligations.MapperJoinsTheTwoUpperNibbles : Prop :=
  ∀ s : State, StateInv s → s.ready = true →
    ∃ b6 b7, s.img.read? 6 = some b6 ∧ s.img.read? 7 = some b7 ∧
      AnswersNumber .mapper s (b6.toNat / 16 + 16 * (b7.toNat / 16))

/-- R116: `RAMCNT` answers byte 8, with 0 normalised to 1; the result is 1 to 255. -/
def Obligations.RamcntNormalisesZeroToOne : Prop :=
  ∀ s : State, StateInv s → s.ready = true →
    ∃ b n, s.img.read? 8 = some b ∧ (b = 0 → n = 1) ∧ (b ≠ 0 → n = b.toNat) ∧
      1 ≤ n ∧ n ≤ 255 ∧ AnswersNumber .ramcnt s n

/-! ### The offset family -/

/-- R130: `PRGOFF i` in Ready answers the formula's exact number for every `i`, whatever the bank
count and the buffer length. -/
def Obligations.PrgoffAnswersTheExactOffset : Prop :=
  ∀ (s : State) (i : BitVec 16), StateInv s → s.ready = true →
    ∃ b6, s.img.read? 6 = some b6 ∧
      AnswersNumber (.prgoff i) s (16 + b6.toNat / 4 % 2 * 512 + Config.prgBankSize * i.toNat)

/-- R131: `CHROFF i` in Ready answers the formula's exact number for every `i`. -/
def Obligations.ChroffAnswersTheExactOffset : Prop :=
  ∀ (s : State) (i : BitVec 16), StateInv s → s.ready = true →
    ∃ b4 b6, s.img.read? 4 = some b4 ∧ s.img.read? 6 = some b6 ∧
      AnswersNumber (.chroff i) s (16 + b6.toNat / 4 % 2 * 512
        + Config.prgBankSize * b4.toNat + Config.chrBankSize * i.toNat)

/-- Graphics banks immediately follow all program banks: `CHROFF 0` and `PRGOFF PRGN` answer alike
(R57, R131). -/
def Obligations.ChroffZeroAndPrgoffOfTheBankCountAgree : Prop :=
  ∀ s : State, StateInv s → s.ready = true →
    ∃ b4, s.img.read? 4 = some b4 ∧ exec (.chroff 0) s = exec (.prgoff (b4.setWidth 16)) s

/-! ### The region family -/

/-- R140: `PRGSLICE i` in Ready answers the view of the whole bank when the index is below `PRGN` and
the bank lies inside the buffer, and raises `RangeError` otherwise. -/
def Obligations.PrgsliceViewsTheBankOrRaisesRangeError : Prop :=
  ∀ (s : State) (i : BitVec 16), StateInv s → s.ready = true →
    ∃ b4 b6, s.img.read? 4 = some b4 ∧ s.img.read? 6 = some b6 ∧
      let off := 16 + b6.toNat / 4 % 2 * 512 + Config.prgBankSize * i.toNat
      if i.toNat < b4.toNat ∧ off + Config.prgBankSize ≤ s.len then
        AnswersView (.prgslice i) s off Config.prgBankSize
      else AnswersError (.prgslice i) s .rangeError

/-- R141: `CHRSLICE i` in Ready, likewise, by `CHRN` and the graphics bank's own range. -/
def Obligations.ChrsliceViewsTheBankOrRaisesRangeError : Prop :=
  ∀ (s : State) (i : BitVec 16), StateInv s → s.ready = true →
    ∃ b4 b5 b6, s.img.read? 4 = some b4 ∧ s.img.read? 5 = some b5 ∧ s.img.read? 6 = some b6 ∧
      let off := 16 + b6.toNat / 4 % 2 * 512 + Config.prgBankSize * b4.toNat
        + Config.chrBankSize * i.toNat
      if i.toNat < b5.toNat ∧ off + Config.chrBankSize ≤ s.len then
        AnswersView (.chrslice i) s off Config.chrBankSize
      else AnswersError (.chrslice i) s .rangeError

/-- R142: `TRNSLICE` in Ready answers the empty view at 16 when the flag is clear, the 512 bytes at
16 when it is set and they lie inside the buffer, and raises `RangeError` otherwise. -/
def Obligations.TrnsliceViewsTheTrainerOrRaisesRangeError : Prop :=
  ∀ s : State, StateInv s → s.ready = true →
    ∃ b6, s.img.read? 6 = some b6 ∧
      (b6.toNat / 4 % 2 = 0 → AnswersView .trnslice s 16 0) ∧
      (b6.toNat / 4 % 2 = 1 → 528 ≤ s.len → AnswersView .trnslice s 16 512) ∧
      (b6.toNat / 4 % 2 = 1 → s.len < 528 → AnswersError .trnslice s .rangeError)

/-- R143: `TITLE` in Ready never fails. One marker byte at the nominal offset is skipped; a start at
or past the end of the buffer is the empty view there; otherwise the view runs up to the first zero
byte, or to the end of the buffer. -/
def Obligations.TitleViewsUpToTheFirstZeroOrTheEnd : Prop :=
  ∀ s : State, StateInv s → s.ready = true →
    ∃ b4 b5 b6 start, s.img.read? 4 = some b4 ∧ s.img.read? 5 = some b5 ∧
      s.img.read? 6 = some b6 ∧
      let t0 := 16 + b6.toNat / 4 % 2 * 512 + Config.prgBankSize * b4.toNat
        + Config.chrBankSize * b5.toNat
      (s.img.read? t0 = some 0xFF → start = t0 + 1) ∧
      (s.img.read? t0 ≠ some 0xFF → start = t0) ∧
      (s.len ≤ start → AnswersView .title s start 0) ∧
      (start < s.len → ∃ p, start ≤ p ∧ p ≤ s.len ∧
        (∀ q, start ≤ q → q < p → s.img.read? q ≠ some 0x00) ∧
        (p < s.len → s.img.read? p = some 0x00) ∧
        AnswersView .title s start (p - start))

/-- R144: `TILE b, k` in Ready answers the 16 bytes of the record when both indices are in range and
the WHOLE bank lies inside the buffer, and raises `RangeError` otherwise. -/
def Obligations.TileViewsTheRecordOrRaisesRangeError : Prop :=
  ∀ (s : State) (b : BitVec 8) (k : BitVec 16), StateInv s → s.ready = true →
    ∃ b4 b5 b6, s.img.read? 4 = some b4 ∧ s.img.read? 5 = some b5 ∧ s.img.read? 6 = some b6 ∧
      let base := 16 + b6.toNat / 4 % 2 * 512 + Config.prgBankSize * b4.toNat
        + Config.chrBankSize * b.toNat
      if b.toNat < b5.toNat ∧ k.toNat < Config.chrBankSize / 16 ∧
          base + Config.chrBankSize ≤ s.len then
        AnswersView (.tile b k) s (base + 16 * k.toNat) 16
      else AnswersError (.tile b k) s .rangeError

/-- R144's derived fact: `TILE b, k` succeeds exactly when `CHRSLICE b` does and `k` is below the
record count, and its bytes are then bytes `16k` to `16k + 15` of that view. -/
def Obligations.ATileIsItsPieceOfTheBanksView : Prop :=
  ∀ (s : State) (b : BitVec 8) (k : BitVec 16), StateInv s → s.ready = true →
    (∀ (v0 v1 : Value) (d : List Byte), Answers (.chrslice (b.setWidth 16)) s ⟨.ok, v0, v1, d⟩ →
      k.toNat < Config.chrBankSize / 16 →
      ∃ w0 : Value, w0.toNat = v0.toNat + 16 * k.toNat ∧
        Answers (.tile b k) s ⟨.ok, w0, 16, (d.drop (16 * k.toNat)).take 16⟩) ∧
    (AnswersError (.chrslice (b.setWidth 16)) s .rangeError →
      AnswersError (.tile b k) s .rangeError) ∧
    (Config.chrBankSize / 16 ≤ k.toNat → AnswersError (.tile b k) s .rangeError)

/-- The records of a graphics bank, delivered one by one in order by the commands of R92, join to
exactly the bytes of the bank's view. -/
def Obligations.TheTilesOfABankJoinToTheBank : Prop :=
  ∀ (s : State) (b : BitVec 8) (v0 v1 : Value) (d : List Byte), StateInv s → s.ready = true →
    Answers (.chrslice (b.setWidth 16)) s ⟨.ok, v0, v1, d⟩ →
    ∃ pieces : List (List Byte),
      List.Forall₂ (fun i x => ∃ w0 : Value, Answers i s ⟨.ok, w0, 16, x⟩)
        (tilesOfBank b.toNat) pieces ∧
      pieces.flatten = d

/-! ### Pseudo-instructions and assembler -/

/-- R91: `DESCRIBE` is the eight commands in that order; issued in state Ready, the eight are
answered `OK` and the block is unchanged. -/
def Obligations.DescribeAnswersEightTimesOk : Prop :=
  describe = [.prgcnt, .chrcnt, .title, .mirror, .battery, .trainer, .mapper, .ramcnt] ∧
  ∀ (s : State) (rest : List HostEvent), StateInv s → s.ready = true →
    s.input = program describe ++ rest →
    ∃ rs : List Response, core.run 8 s =
        .next (State.mk s.ready s.img rest (s.responses ++ rs)) ∧
      rs.length = 8 ∧ ∀ r ∈ rs, r.st = .ok

/-- R92: `TILES` is `CHRN * (CHR_BANK_SIZE / 16)` commands, banks outer and records inner, ascending,
the upper ends excluded. -/
def Obligations.TilesListsEveryRecordInOrder : Prop :=
  ∀ chrn : Byte,
    (tiles chrn).length = chrn.toNat * (Config.chrBankSize / 16) ∧
    ∀ b k : Nat, b < chrn.toNat → k < Config.chrBankSize / 16 →
      ∃ (b' : BitVec 8) (k' : BitVec 16), b'.toNat = b ∧ k'.toNat = k ∧
        (tiles chrn)[b * (Config.chrBankSize / 16) + k]? = some (.tile b' k')

/-- R90, for every source name of the opcode map (R86): the call without operand assembles to its
one command, as the mnemonic line does; the call with a buffer's name is `DECODE` of that buffer; the
call with an index assembles as its mnemonic line, whatever word the index is, and to the command of
that index when the word is a number of 16 bits. Which characters make a
word, `isWordChar`, is the model's choice and no rule of the spec (log entry 13). -/
def Obligations.ASourceCallAssemblesAsItsMnemonic : Prop :=
  ∀ chrn : Byte,
    (∀ e ∈ [("prg_bank_count", "PRGCNT", Instr.prgcnt), ("chr_bank_count", "CHRCNT", .chrcnt),
        ("mirror_mode", "MIRROR", .mirror), ("battery_backed_ram", "BATTERY", .battery),
        ("has_trainer", "TRAINER", .trainer), ("mapper_number", "MAPPER", .mapper),
        ("ram_bank_count", "RAMCNT", .ramcnt), ("title", "TITLE", .title)],
      assembleLine chrn (e.1.toList ++ ['(', ')']) = some [⟨e.2.2, none⟩] ∧
      assembleLine chrn e.2.1.toList = some [⟨e.2.2, none⟩]) ∧
    ∀ cs : List Char, cs ≠ [] → (∀ c ∈ cs, isWordChar c = true) →
      (∀ name ∈ ["decode", "ImageDecoder::new"],
        assembleLine chrn (name.toList ++ ['('] ++ cs ++ [')']) =
          some [⟨.decode, some (String.ofList cs)⟩]) ∧
      assembleLine chrn ("DECODE".toList ++ [' '] ++ cs) =
        some [⟨.decode, some (String.ofList cs)⟩] ∧
      ∀ e ∈ [("prg_bank_offset", "PRGOFF", Instr.prgoff), ("chr_bank_offset", "CHROFF", .chroff),
          ("prg_bank_slice", "PRGSLICE", .prgslice), ("chr_bank_slice", "CHRSLICE", .chrslice)],
        assembleLine chrn (e.1.toList ++ ['('] ++ cs ++ [')']) =
          assembleLine chrn (e.2.1.toList ++ [' '] ++ cs) ∧
        ∀ i : BitVec 16, asmIndex16 cs = some i →
          assembleLine chrn (e.1.toList ++ ['('] ++ cs ++ [')']) = some [⟨e.2.2 i, none⟩]
end

