-- ==== Sys2Proof/Laws/Assembler.lean ====
section
/-! SUPPORT. What the tokens of an assembler line are, for the two forms a line takes: the mnemonic
form and the call form (30_encoding.md R90). -/

namespace Sys2Proof.Machine

/-- A character of a word is none of the characters that end a word, nor the start of a comment. -/
theorem isWordChar_ne {c : Char} (h : isWordChar c = true) :
    c ≠ ' ' ∧ c ≠ '\t' ∧ c ≠ ',' ∧ c ≠ '(' ∧ c ≠ ')' ∧ c ≠ ';' := by
  refine ⟨?_, ?_, ?_, ?_, ?_, ?_⟩ <;> rintro rfl <;> simp [isWordChar] at h

/-- The characters of a word join the current word. -/
theorem tokensFrom_word {cs : List Char} (h : ∀ c ∈ cs, isWordChar c = true)
    (cur rest : List Char) : tokensFrom cur (cs ++ rest) = tokensFrom (cur ++ cs) rest := by
  induction cs generalizing cur with
  | nil => simp
  | cons c cs ih =>
    obtain ⟨h1, h2, h3, h4, h5, -⟩ := isWordChar_ne (h c (by simp))
    rw [List.cons_append, tokensFrom, if_neg (by simp [h1, h2]), if_neg h3, if_neg h4, if_neg h5,
      if_pos (h c (by simp)), ih fun c hc => h c (by simp [hc])]
    simp

/-- A line with no `;` is its own text. -/
theorem withoutComment_id {cs : List Char} (h : ∀ c ∈ cs, c ≠ ';') : withoutComment cs = cs := by
  induction cs with
  | nil => rfl
  | cons c cs ih => rw [withoutComment, if_neg (h c (by simp)), ih fun c hc => h c (by simp [hc])]

/-- A line of the mnemonic form with one operand. -/
theorem assembleLine_operand (chrn : Byte) {name cs : List Char} (hn : name ≠ [])
    (hw : ∀ c ∈ name, isWordChar c = true) (hc : cs ≠ []) (h : ∀ c ∈ cs, isWordChar c = true) :
    assembleLine chrn (name ++ [' '] ++ cs) = asmMnemonic chrn (String.ofList name) [cs] := by
  have ht : tokensFrom [] (withoutComment (name ++ [' '] ++ cs)) = some [.word name, .word cs] := by
    rw [withoutComment_id]
    · have hcs := tokensFrom_word h [] []
      rw [List.append_nil] at hcs
      rw [List.append_assoc, tokensFrom_word hw]
      simp [tokensFrom, hcs, endWord, hc, hn]
    · intro c hm
      simp only [List.mem_append, List.mem_cons, List.not_mem_nil, or_false] at hm
      rcases hm with (hm | rfl) | hm
      · exact (isWordChar_ne (hw c hm)).2.2.2.2.2
      · decide
      · exact (isWordChar_ne (h c hm)).2.2.2.2.2
  rw [assembleLine, ht]
  rfl

/-- A line of the call form with one operand. -/
theorem assembleLine_call (chrn : Byte) {name cs : List Char} (hn : name ≠ [])
    (hw : ∀ c ∈ name, isWordChar c = true) (hc : cs ≠ []) (h : ∀ c ∈ cs, isWordChar c = true) :
    assembleLine chrn (name ++ ['('] ++ cs ++ [')']) = asmAlias (String.ofList name) [cs] := by
  have ht : tokensFrom [] (withoutComment (name ++ ['('] ++ cs ++ [')'])) =
      some [.word name, .openParen, .word cs, .closeParen] := by
    rw [withoutComment_id]
    · rw [List.append_assoc, List.append_assoc, tokensFrom_word hw]
      simp only [List.nil_append, List.cons_append, tokensFrom]
      rw [tokensFrom_word h]
      simp [tokensFrom, endWord, hc, hn]
    · intro c hm
      simp only [List.mem_append, List.mem_cons, List.not_mem_nil, or_false] at hm
      rcases hm with ((hm | rfl) | hm) | rfl
      · exact (isWordChar_ne (hw c hm)).2.2.2.2.2
      · decide
      · exact (isWordChar_ne (h c hm)).2.2.2.2.2
      · decide
  rw [assembleLine, ht]
  rfl

end Sys2Proof.Machine
end

