-- ==== Sys2Proof/Laws/Config.lean ====
section
/-! SUPPORT. What is known of the OPEN bank sizes: the constraints of 00_scope.md R6 and R8, and
nothing else. -/

namespace Sys2Proof.Config

/-- The pair R6 recommends meets the constraints. -/
theorem recommended_sizes_legal : LegalSizes 16384 8192 := by decide

/-- Whatever the implementation chose, the sizes in force meet the constraints. -/
theorem bankSizes_legal : LegalSizes prgBankSize chrBankSize := by
  unfold prgBankSize chrBankSize bankSizes
  split
  · assumption
  · exact recommended_sizes_legal

/-- A legal choice is in force as chosen: no legal pair is shut out. -/
theorem bankSizes_eq_chosen (h : LegalSizes bankSizesChosen.1 bankSizesChosen.2) :
    bankSizes = bankSizesChosen := by
  unfold bankSizes
  exact if_pos h

theorem prgBankSize_pos : 0 < prgBankSize := bankSizes_legal.1

theorem chrBankSize_pos : 0 < chrBankSize := bankSizes_legal.2.1

/-- The exactness constraint with the maximum split in two (R8). -/
theorem sizes_exact :
    16 + 512 + 255 * prgBankSize + 65535 * prgBankSize + 16 * 65535 + 1 < 2 ^ 32 ∧
      16 + 512 + 255 * prgBankSize + 65535 * chrBankSize + 16 * 65535 + 1 < 2 ^ 32 := by
  have h := bankSizes_legal.2.2.2
  omega

/-- A graphics bank is a whole number of tile records (R6). -/
theorem tilesPerBank_mul : 16 * tilesPerBank = chrBankSize := by
  have h := bankSizes_legal.2.2.1
  unfold tilesPerBank tileSize
  omega

theorem tilesPerBank_pos : 0 < tilesPerBank := by
  have h := tilesPerBank_mul
  have h' := chrBankSize_pos
  omega

end Sys2Proof.Config
end

