-- ==== Sys2Proof/Laws/Decode.lean ====
section
/-! SUPPORT. The fields of an encoded word (30_encoding.md R80 to R84). -/

namespace Sys2Proof

theorem wordI_toNat (op : BitVec 8) (i : BitVec 16) :
    (wordI op i).toNat = op.toNat * 2 ^ 24 + i.toNat := by
  have h := i.isLt
  simp only [wordI, BitVec.toNat_append]
  rw [← Nat.shiftLeft_add_eq_or_of_lt h]
  simp [Nat.shiftLeft_eq]
  omega

theorem wordT_toNat (op b : BitVec 8) (k : BitVec 16) :
    (wordT op b k).toNat = op.toNat * 2 ^ 24 + k.toNat * 2 ^ 8 + b.toNat := by
  have hb := b.isLt
  have hk := k.isLt
  simp only [wordT, BitVec.toNat_append]
  rw [← Nat.shiftLeft_add_eq_or_of_lt hb, ← Nat.shiftLeft_add_eq_or_of_lt hk]
  simp [Nat.shiftLeft_eq]
  omega

theorem wordN_toNat (op : BitVec 8) : (wordN op).toNat = op.toNat * 2 ^ 24 := by
  simp only [wordN, BitVec.toNat_append]
  simp [Nat.shiftLeft_eq]

@[simp] theorem wordN_opcode (op : BitVec 8) : opcodeField (wordN op) = op := by
  have ho := op.isLt
  apply BitVec.eq_of_toNat_eq
  simp only [opcodeField, BitVec.extractLsb'_toNat, wordN_toNat, Nat.shiftRight_eq_div_pow]
  omega

@[simp] theorem wordN_reserved (op : BitVec 8) : (wordN op).extractLsb' 0 24 = 0 := by
  apply BitVec.eq_of_toNat_eq
  simp only [BitVec.extractLsb'_toNat, wordN_toNat, Nat.shiftRight_eq_div_pow]
  simp

@[simp] theorem wordI_opcode (op : BitVec 8) (i : BitVec 16) : opcodeField (wordI op i) = op := by
  have h := i.isLt
  have ho := op.isLt
  apply BitVec.eq_of_toNat_eq
  simp only [opcodeField, BitVec.extractLsb'_toNat, wordI_toNat, Nat.shiftRight_eq_div_pow]
  omega

@[simp] theorem wordI_reserved (op : BitVec 8) (i : BitVec 16) :
    (wordI op i).extractLsb' 16 8 = 0 := by
  have h := i.isLt
  apply BitVec.eq_of_toNat_eq
  simp only [BitVec.extractLsb'_toNat, wordI_toNat, Nat.shiftRight_eq_div_pow]
  simp
  omega

@[simp] theorem wordI_index (op : BitVec 8) (i : BitVec 16) :
    (wordI op i).extractLsb' 0 16 = i := by
  have h := i.isLt
  apply BitVec.eq_of_toNat_eq
  simp only [BitVec.extractLsb'_toNat, wordI_toNat, Nat.shiftRight_eq_div_pow]
  omega

@[simp] theorem wordT_opcode (op b : BitVec 8) (k : BitVec 16) :
    opcodeField (wordT op b k) = op := by
  have hb := b.isLt
  have hk := k.isLt
  have ho := op.isLt
  apply BitVec.eq_of_toNat_eq
  simp only [opcodeField, BitVec.extractLsb'_toNat, wordT_toNat, Nat.shiftRight_eq_div_pow]
  omega

@[simp] theorem wordT_bank (op b : BitVec 8) (k : BitVec 16) :
    (wordT op b k).extractLsb' 0 8 = b := by
  have hb := b.isLt
  apply BitVec.eq_of_toNat_eq
  simp only [BitVec.extractLsb'_toNat, wordT_toNat, Nat.shiftRight_eq_div_pow]
  omega

@[simp] theorem wordT_record (op b : BitVec 8) (k : BitVec 16) :
    (wordT op b k).extractLsb' 8 16 = k := by
  have hb := b.isLt
  have hk := k.isLt
  apply BitVec.eq_of_toNat_eq
  simp only [BitVec.extractLsb'_toNat, wordT_toNat, Nat.shiftRight_eq_div_pow]
  omega

/-! ### Words by number -/

theorem opcodeField_toNat (w : CommandWord) : (opcodeField w).toNat = w.toNat / 2 ^ 24 := by
  have h := w.isLt
  simp only [opcodeField, BitVec.extractLsb'_toNat, Nat.shiftRight_eq_div_pow]
  omega

theorem reservedN_iff (w : CommandWord) :
    w.extractLsb' 0 24 = 0 ↔ w.toNat % 2 ^ 24 = 0 := by
  rw [← BitVec.toNat_inj]
  simp

theorem reservedI_iff (w : CommandWord) :
    w.extractLsb' 16 8 = 0 ↔ w.toNat / 2 ^ 16 % 2 ^ 8 = 0 := by
  rw [← BitVec.toNat_inj]
  simp [Nat.shiftRight_eq_div_pow]

/-! ### Masks by number -/

theorem masked_toNat (w : CommandWord) (n : Nat) :
    (w &&& BitVec.allOnes 32 <<< n).toNat = w.toNat / 2 ^ n * 2 ^ n := by
  rw [← BitVec.shiftLeft_ushiftRight, BitVec.toNat_shiftLeft, BitVec.toNat_ushiftRight,
    Nat.shiftLeft_eq, Nat.shiftRight_eq_div_pow]
  have h1 := w.isLt
  have h2 : w.toNat / 2 ^ n * 2 ^ n ≤ w.toNat := Nat.div_mul_le_self _ _
  exact Nat.mod_eq_of_lt (by omega)

/-- The mask of format T keeps the opcode alone (R83, R86). -/
theorem maskT_toNat (w : CommandWord) :
    (w &&& 0xFF000000#32).toNat = w.toNat / 2 ^ 24 * 2 ^ 24 := masked_toNat w 24

/-- The mask of format I keeps the opcode and the reserved bits (R82, R86). -/
theorem maskI_toNat (w : CommandWord) :
    (w &&& 0xFFFF0000#32).toNat = w.toNat / 2 ^ 16 * 2 ^ 16 := masked_toNat w 16

/-- The mask of format N keeps the whole word (R81, R86). -/
theorem maskN_toNat (w : CommandWord) : (w &&& 0xFFFFFFFF#32).toNat = w.toNat := by
  have := masked_toNat w 0
  simpa using this

/-- A format N word is its opcode: the whole word is fixed (R81). -/
theorem eq_wordN {w : CommandWord} {op : Nat} (ho : (opcodeField w).toNat = op)
    (hr : w.extractLsb' 0 24 = 0) : w = wordN (BitVec.ofNat 8 op) := by
  have h := w.isLt
  rw [opcodeField_toNat] at ho
  rw [reservedN_iff] at hr
  apply BitVec.eq_of_toNat_eq
  rw [wordN_toNat, BitVec.toNat_ofNat]
  omega

/-- A format I word is its opcode and its index (R82). -/
theorem eq_wordI {w : CommandWord} {op : Nat} (ho : (opcodeField w).toNat = op)
    (hr : w.extractLsb' 16 8 = 0) :
    w = wordI (BitVec.ofNat 8 op) (w.extractLsb' 0 16) := by
  have h := w.isLt
  rw [opcodeField_toNat] at ho
  rw [reservedI_iff] at hr
  apply BitVec.eq_of_toNat_eq
  rw [wordI_toNat, BitVec.toNat_ofNat, BitVec.extractLsb'_toNat]
  simp only [Nat.shiftRight_eq_div_pow]
  omega

/-- A format T word is its opcode, its record and its bank (R83). -/
theorem eq_wordT {w : CommandWord} {op : Nat} (ho : (opcodeField w).toNat = op) :
    w = wordT (BitVec.ofNat 8 op) (w.extractLsb' 0 8) (w.extractLsb' 8 16) := by
  have h := w.isLt
  rw [opcodeField_toNat] at ho
  apply BitVec.eq_of_toNat_eq
  rw [wordT_toNat, BitVec.toNat_ofNat, BitVec.extractLsb'_toNat, BitVec.extractLsb'_toNat]
  simp only [Nat.shiftRight_eq_div_pow]
  omega

/-! ### Words by mask: a word that matches a row is the format's word -/

theorem eq_wordN_of_mask {w : CommandWord} {op : BitVec 8} (h : w &&& 0xFFFFFFFF#32 = wordN op) :
    w = wordN op := by
  apply BitVec.eq_of_toNat_eq
  rw [← h, maskN_toNat]

theorem eq_wordI_of_mask {w : CommandWord} {op : BitVec 8} (h : w &&& 0xFFFF0000#32 = wordN op) :
    w = wordI op (w.extractLsb' 0 16) := by
  have h1 := maskI_toNat w
  have h2 := w.isLt
  rw [h, wordN_toNat] at h1
  apply BitVec.eq_of_toNat_eq
  rw [wordI_toNat, BitVec.extractLsb'_toNat]
  simp only [Nat.shiftRight_eq_div_pow]
  omega

theorem eq_wordT_of_mask {w : CommandWord} {op : BitVec 8} (h : w &&& 0xFF000000#32 = wordN op) :
    w = wordT op (w.extractLsb' 0 8) (w.extractLsb' 8 16) := by
  have h1 := maskT_toNat w
  have h2 := w.isLt
  rw [h, wordN_toNat] at h1
  apply BitVec.eq_of_toNat_eq
  rw [wordT_toNat, BitVec.extractLsb'_toNat, BitVec.extractLsb'_toNat]
  simp only [Nat.shiftRight_eq_div_pow]
  omega

end Sys2Proof
end

