-- ==== Sys2Proof/Laws/Memory.lean ====
section
/-! SUPPORT. The laws of the image: its canonical form is kept by every operation that writes it, a
latched byte sequence reads back byte for byte, and a read answers exactly inside the image
(20_memory.md R50, R60; 00_scope.md R11). -/

namespace Sys2Proof.Machine

/-- The bytes of an image in cell order. -/
def Memory.bytes (m : Memory) : List Byte := m.map Prod.snd

@[simp] theorem Memory.bytes_length (m : Memory) : m.bytes.length = m.length := by
  simp [Memory.bytes]

@[simp] theorem Memory.ofBytesFrom_length (a : Nat) (bs : List Byte) :
    (Memory.ofBytesFrom a bs).length = bs.length := by
  induction bs generalizing a with
  | nil => rfl
  | cons b bs ih => simp [Memory.ofBytesFrom, ih]

@[simp] theorem Memory.ofBytes_length (bs : List Byte) :
    (Memory.ofBytes bs).length = bs.length := Memory.ofBytesFrom_length 0 bs

/-- A latched byte sequence is in canonical form. -/
theorem Memory.ofBytesFrom_wfFrom (a : Nat) (bs : List Byte) :
    Memory.wfFrom a (Memory.ofBytesFrom a bs) = true := by
  induction bs generalizing a with
  | nil => rfl
  | cons b bs ih => simp [Memory.ofBytesFrom, Memory.wfFrom, ih]

@[simp] theorem Memory.ofBytes_wf (bs : List Byte) : (Memory.ofBytes bs).wf = true :=
  Memory.ofBytesFrom_wfFrom 0 bs

@[simp] theorem Memory.nil_wf : Memory.wf [] = true := rfl

theorem Memory.wfFrom_eq_ofBytesFrom {a : Nat} {m : Memory} (h : Memory.wfFrom a m = true) :
    m = Memory.ofBytesFrom a m.bytes := by
  induction m generalizing a with
  | nil => rfl
  | cons c m ih =>
    obtain ⟨k, b⟩ := c
    simp only [Memory.wfFrom, Bool.and_eq_true, beq_iff_eq] at h
    obtain ⟨rfl, h⟩ := h
    simpa [Memory.ofBytesFrom, Memory.bytes] using ih h

/-- An image in canonical form is the latch of its bytes. -/
theorem Memory.eq_ofBytes {m : Memory} (h : m.wf = true) : m = Memory.ofBytes m.bytes :=
  Memory.wfFrom_eq_ofBytesFrom h

theorem Memory.ofBytesFrom_read? (a : Nat) (bs : List Byte) (x : Nat) :
    (Memory.ofBytesFrom a bs).read? x = if a ≤ x then bs[x - a]? else none := by
  induction bs generalizing a with
  | nil => simp [Memory.ofBytesFrom, Memory.read?]
  | cons b bs ih =>
    simp only [Memory.ofBytesFrom, Memory.read?, ih]
    by_cases hx : a = x
    · simp [hx]
    · by_cases hle : a ≤ x
      · have h1 : a + 1 ≤ x := by omega
        have h2 : x - a = x - (a + 1) + 1 := by omega
        simp [hx, h1, hle, h2]
      · simp [hx, hle, show ¬ a + 1 ≤ x by omega]

/-- Reading offset `a` after a latch gives byte `a` of what was latched (R62). -/
@[simp] theorem Memory.ofBytes_read? (bs : List Byte) (a : Nat) :
    (Memory.ofBytes bs).read? a = bs[a]? := by
  simp [Memory.ofBytes, Memory.ofBytesFrom_read?]

@[simp] theorem Memory.ofBytes_bytes (bs : List Byte) : (Memory.ofBytes bs).bytes = bs := by
  have h : ∀ a, (Memory.ofBytesFrom a bs).bytes = bs := by
    induction bs with
    | nil => intro a; rfl
    | cons b bs ih => intro a; simpa [Memory.ofBytesFrom, Memory.bytes] using ih (a + 1)
  exact h 0

/-- Reading an image in canonical form is indexing its bytes. -/
theorem Memory.read?_eq_bytes {m : Memory} (h : m.wf = true) (a : Nat) :
    m.read? a = m.bytes[a]? := by
  rw [Memory.eq_ofBytes h]
  simp

/-- Every addressable offset reads (R50). -/
theorem Memory.read?_of_lt {m : Memory} (h : m.wf = true) {a : Nat} (ha : a < m.length) :
    ∃ b, m.read? a = some b := by
  rw [Memory.read?_eq_bytes h]
  exact ⟨m.bytes[a]'(by simpa using ha), by simp [ha]⟩

/-- No other offset reads (R50, R60). -/
theorem Memory.read?_eq_none_iff {m : Memory} (h : m.wf = true) (a : Nat) :
    m.read? a = none ↔ m.length ≤ a := by
  rw [Memory.read?_eq_bytes h]
  simp

theorem Memory.lt_of_read? {m : Memory} (h : m.wf = true) {a : Nat} {b : Byte}
    (hr : m.read? a = some b) : a < m.length := by
  by_contra hc
  have := (Memory.read?_eq_none_iff h a).2 (by omega)
  simp [this] at hr

@[simp] theorem Memory.memRead_zero (m : Memory) (a : Nat) : m.memRead a 0 = some [] := rfl

/-- What a range read answers: as many bytes as asked for, each the byte at its offset (R11). -/
theorem Memory.memRead_spec {m : Memory} {a n : Nat} {d : List Byte}
    (h : m.memRead a n = some d) :
    d.length = n ∧ ∀ j, j < n → d[j]? = m.read? (a + j) := by
  induction n generalizing a d with
  | zero =>
    simp only [Memory.memRead_zero, Option.some.injEq] at h
    subst h
    simp
  | succ n ih =>
    simp only [Memory.memRead] at h
    split at h
    · simp at h
    · rename_i b hb
      obtain ⟨ds, hds, rfl⟩ := Option.map_eq_some_iff.1 h
      obtain ⟨hlen, hget⟩ := ih hds
      refine ⟨by simp [hlen], fun j hj => ?_⟩
      cases j with
      | zero => simpa using hb.symm
      | succ j =>
        rw [List.getElem?_cons_succ, hget j (by omega)]
        congr 1
        omega

/-- A range read answers when every byte of the range does. -/
theorem Memory.memRead_of_reads {m : Memory} {a n : Nat}
    (h : ∀ j, j < n → ∃ b, m.read? (a + j) = some b) : ∃ d, m.memRead a n = some d := by
  induction n generalizing a with
  | zero => exact ⟨[], rfl⟩
  | succ n ih =>
    obtain ⟨b, hb⟩ := h 0 (by omega)
    obtain ⟨d, hd⟩ := ih (a := a + 1) fun j hj => by
      obtain ⟨c, hc⟩ := h (j + 1) (by omega)
      exact ⟨c, by rw [← hc]; congr 1; omega⟩
    simp only [Nat.add_zero] at hb
    exact ⟨b :: d, by simp [Memory.memRead, hb, hd]⟩

/-- A range inside the image reads (R11, R60). -/
theorem Memory.memRead_of_fits {m : Memory} (h : m.wf = true) {a n : Nat}
    (hf : a + n ≤ m.length) : ∃ d, m.memRead a n = some d :=
  Memory.memRead_of_reads fun j hj => Memory.read?_of_lt h (by omega)

/-- A non-empty range that reads lies inside the image (R60). -/
theorem Memory.fits_of_memRead {m : Memory} (h : m.wf = true) {a n : Nat} {d : List Byte}
    (hr : m.memRead a n = some d) (hn : n ≠ 0) : a + n ≤ m.length := by
  obtain ⟨hlen, hget⟩ := Memory.memRead_spec hr
  have h1 := hget (n - 1) (by omega)
  have h2 : d[n - 1]? = some (d[n - 1]'(by omega)) := by simp
  have := Memory.lt_of_read? h (h1.symm.trans h2)
  omega

/-- A range read is a piece of the image's bytes. -/
theorem Memory.memRead_eq_take {m : Memory} (h : m.wf = true) {a n : Nat}
    (hf : a + n ≤ m.length) : m.memRead a n = some ((m.bytes.drop a).take n) := by
  obtain ⟨d, hd⟩ := Memory.memRead_of_fits h hf
  obtain ⟨hlen, hget⟩ := Memory.memRead_spec hd
  rw [hd]
  congr 1
  apply List.ext_getElem?
  intro j
  by_cases hj : j < n
  · rw [hget j hj, Memory.read?_eq_bytes h]
    simp [hj]
  · rw [List.getElem?_eq_none (by omega), List.getElem?_eq_none (by simp; omega)]

/-- Two range reads agree where their bytes agree. -/
theorem Memory.memRead_congr {m m' : Memory} {a n : Nat}
    (h : ∀ j, j < n → m.read? (a + j) = m'.read? (a + j)) : m.memRead a n = m'.memRead a n := by
  induction n generalizing a with
  | zero => rfl
  | succ n ih =>
    have h0 := h 0 (by omega)
    simp only [Nat.add_zero] at h0
    have h1 : m.memRead (a + 1) n = m'.memRead (a + 1) n := ih fun j hj => by
      have := h (j + 1) (by omega)
      rwa [show a + (j + 1) = a + 1 + j by omega] at this
    simp [Memory.memRead, h0, h1]

/-- A range read of two ranges in a row. -/
theorem Memory.memRead_append {m : Memory} {a n k : Nat} {d e : List Byte}
    (hd : m.memRead a n = some d) (he : m.memRead (a + n) k = some e) :
    m.memRead a (n + k) = some (d ++ e) := by
  induction n generalizing a d with
  | zero =>
    simp only [Memory.memRead_zero, Option.some.injEq] at hd
    subst hd
    simpa using he
  | succ n ih =>
    simp only [Memory.memRead] at hd
    split at hd
    · simp at hd
    · rename_i b hb
      obtain ⟨ds, hds, rfl⟩ := Option.map_eq_some_iff.1 hd
      have := ih hds (by rwa [show a + 1 + n = a + (n + 1) by omega])
      rw [show n + 1 + k = n + k + 1 by omega]
      simp [Memory.memRead, hb, this]

end Sys2Proof.Machine
end

