-- ==== Sys2Proof/Laws/State.lean ====
section
/-! SUPPORT. One lemma per field per update of State, so that no later proof unfolds a record
update. -/

namespace Sys2Proof.Machine

@[simp] theorem State.deliver_ready (r : Response) (s : State) : (s.deliver r).ready = s.ready := rfl
@[simp] theorem State.deliver_img (r : Response) (s : State) : (s.deliver r).img = s.img := rfl
@[simp] theorem State.deliver_input (r : Response) (s : State) :
    (s.deliver r).input = s.input.tail := rfl
@[simp] theorem State.deliver_responses (r : Response) (s : State) :
    (s.deliver r).responses = s.responses ++ [r] := rfl
@[simp] theorem State.deliver_len (r : Response) (s : State) : (s.deliver r).len = s.len := rfl

@[simp] theorem State.retire_ready (s : State) : s.retire.ready = s.ready := rfl
@[simp] theorem State.retire_img (s : State) : s.retire.img = s.img := rfl
@[simp] theorem State.retire_input (s : State) : s.retire.input = s.input.tail := rfl
@[simp] theorem State.retire_responses (s : State) : s.retire.responses = s.responses := rfl

@[simp] theorem State.latch_ready (bs : List Byte) (s : State) : (s.latch bs).ready = true := rfl
@[simp] theorem State.latch_img (bs : List Byte) (s : State) :
    (s.latch bs).img = Memory.ofBytes bs := rfl
@[simp] theorem State.latch_input (bs : List Byte) (s : State) : (s.latch bs).input = s.input := rfl
@[simp] theorem State.latch_responses (bs : List Byte) (s : State) :
    (s.latch bs).responses = s.responses := rfl
@[simp] theorem State.latch_len (bs : List Byte) (s : State) : (s.latch bs).len = bs.length := by
  simp [State.len]

@[simp] theorem State.clear_ready (s : State) : s.clear.ready = false := rfl
@[simp] theorem State.clear_img (s : State) : s.clear.img = [] := rfl
@[simp] theorem State.clear_input (s : State) : s.clear.input = s.input := rfl
@[simp] theorem State.clear_responses (s : State) : s.clear.responses = s.responses := rfl
@[simp] theorem State.clear_len (s : State) : s.clear.len = 0 := rfl

@[simp] theorem State.issue_ready (e : HostEvent) (s : State) : (s.issue e).ready = s.ready := rfl
@[simp] theorem State.issue_img (e : HostEvent) (s : State) : (s.issue e).img = s.img := rfl
@[simp] theorem State.issue_input (e : HostEvent) (s : State) :
    (s.issue e).input = s.input ++ [e] := rfl
@[simp] theorem State.issue_responses (e : HostEvent) (s : State) :
    (s.issue e).responses = s.responses := rfl

@[simp] theorem State.present_ready (w : CommandWord) (s : State) :
    (s.present w).ready = s.ready := rfl
@[simp] theorem State.present_img (w : CommandWord) (s : State) : (s.present w).img = s.img := rfl
@[simp] theorem State.present_input (w : CommandWord) (s : State) :
    (s.present w).input = .command ⟨w, []⟩ :: s.input := rfl
@[simp] theorem State.present_responses (w : CommandWord) (s : State) :
    (s.present w).responses = s.responses := rfl

/-- The image of the state after reset is in canonical form. -/
theorem State.reset_wf : State.reset.img.wf = true := rfl

/-- A latch leaves the image in canonical form, and so does a clear. -/
theorem State.latch_wf (bs : List Byte) (s : State) : (s.latch bs).img.wf = true := by simp

theorem State.clear_wf (s : State) : s.clear.img.wf = true := rfl

end Sys2Proof.Machine
end

