-- ==== Sys2Proof/Laws/Ops.lean ====
section
/-! SUPPORT. One lemma per shared operation that says what it answers, for the meanings and the
provers to cite instead of unfolding it. -/

namespace Sys2Proof.Machine

/-! ### Numbers -/

/-- The 32-bit form of a number below 2^32 is that number (R8, R10). -/
theorem zext32_toNat {n : Nat} (h : n < 2 ^ 32) : (zext32 n).toNat = n := by
  simpa [zext32] using h

theorem zext32_byte (b : Byte) : zext32 b.toNat = b.setWidth 32 := by
  apply BitVec.eq_of_toNat_eq
  simp [zext32]

/-! ### The outcome of a command whose block state does not change -/

/-- A response of a command: a success with its results, or an error with no payload (R12). -/
def Response.Shaped (r : Response) : Prop :=
  (∃ r0 r1 data, r = okResponse r0 r1 data) ∨ ∃ e, r = errorResponse e

/-- An error response carries no payload (R12, R160). -/
theorem Response.Shaped.error {r : Response} (h : r.Shaped) {e : ErrorKind}
    (he : r.st = .error e) : r = errorResponse e := by
  obtain ⟨r0, r1, data, rfl⟩ | ⟨e', rfl⟩ := h
  · cases he
  · cases he
    rfl

/-- The result is a response with nothing else changed, or a stop. -/
def OnlyAnswers (s : State) (R : Result) : Prop :=
  ∀ t, R = .next t → ∃ r, r.Shaped ∧ t = s.deliver r

theorem respond_onlyAnswers (r0 r1 : Nat) (data : List Byte) (s : State) :
    OnlyAnswers s (respond r0 r1 data s) := by
  intro t h
  exact ⟨_, .inl ⟨r0, r1, data, rfl⟩, (Host.Outcome.next.inj h).symm⟩

theorem raise_onlyAnswers (e : ErrorKind) (s : State) : OnlyAnswers s (raise e s) := by
  intro t h
  exact ⟨_, .inr ⟨e, rfl⟩, (Host.Outcome.next.inj h).symm⟩

theorem fault_onlyAnswers (f : Fault) (s : State) : OnlyAnswers s (.fault f) := by
  intro t h
  cases h

theorem whenReady_onlyAnswers {s : State} {R : Result} (h : OnlyAnswers s R) :
    OnlyAnswers s (whenReady s R) := by
  unfold whenReady
  split
  · exact h
  · exact raise_onlyAnswers _ s

theorem withByte_onlyAnswers {s : State} {a : Nat} {body : Byte → Result}
    (h : ∀ b, OnlyAnswers s (body b)) : OnlyAnswers s (withByte s a body) := by
  unfold withByte
  split
  · exact h _
  · exact fault_onlyAnswers _ s

theorem ite_onlyAnswers {s : State} {p : Prop} [Decidable p] {R R' : Result}
    (h : OnlyAnswers s R) (h' : OnlyAnswers s R') : OnlyAnswers s (if p then R else R') := by
  split
  · exact h
  · exact h'

theorem respondView_onlyAnswers (off size : Nat) (s : State) :
    OnlyAnswers s (respondView off size s) := by
  unfold respondView
  split
  · exact respond_onlyAnswers _ _ _ s
  · exact fault_onlyAnswers _ s

theorem checkedView_onlyAnswers (off size : Nat) (s : State) :
    OnlyAnswers s (checkedView off size s) :=
  ite_onlyAnswers (respondView_onlyAnswers off size s) (raise_onlyAnswers _ s)

/-! ### What the parts of a meaning come to -/

theorem whenReady_ready {s : State} (h : s.ready = true) (R : Result) : whenReady s R = R := by
  simp [whenReady, h]

theorem whenReady_idle {s : State} (h : s.ready = false) (R : Result) :
    whenReady s R = raise .notDecoded s := by
  simp [whenReady, h]

theorem withByte_some {s : State} {a : Nat} {b : Byte} (h : s.img.read? a = some b)
    (body : Byte → Result) : withByte s a body = body b := by
  simp [withByte, h]

theorem respondView_some {s : State} {off size : Nat} {d : List Byte}
    (h : s.img.memRead off size = some d) : respondView off size s = respond off size d s := by
  simp [respondView, h]

theorem checkedView_fits {s : State} {off size : Nat} (h : off + size ≤ s.len) :
    checkedView off size s = respondView off size s := by
  simp [checkedView, fits, h]

theorem checkedView_not_fits {s : State} {off size : Nat} (h : ¬ off + size ≤ s.len) :
    checkedView off size s = raise .rangeError s := by
  simp [checkedView, fits, h]

/-! ### The address functions -/

/-- `TRNSZ` by the value of the bit (R55). -/
theorem trainerBytes_eq (f6 : Byte) : trainerBytes f6 = f6.toNat / 4 % 2 * 512 := by
  revert f6
  decide

theorem trainerBytes_le (f6 : Byte) : trainerBytes f6 ≤ 512 := by
  rw [trainerBytes_eq]
  omega

/-- `prg_off(i)` as R130 writes it. -/
theorem prgOff_eq (f6 : Byte) (i : Nat) :
    prgOff f6 i = 16 + f6.toNat / 4 % 2 * 512 + Config.prgBankSize * i := by
  simp [prgOff, trainerBytes_eq, Config.headerSize]

/-- `chr_off(i)` as R131 writes it. -/
theorem chrOff_eq (f6 prgn : Byte) (i : Nat) :
    chrOff f6 prgn i = 16 + f6.toNat / 4 % 2 * 512 + Config.prgBankSize * prgn.toNat
      + Config.chrBankSize * i := by
  simp [chrOff, prgOff_eq]

/-- Every program bank index gives an offset, and an end of bank, below 2^32 (R8). -/
theorem prgOff_lt (f6 : Byte) {i : Nat} (h : i < 2 ^ 16) :
    prgOff f6 i + Config.prgBankSize < 2 ^ 32 := by
  have h1 := Config.sizes_exact.1
  have h2 := trainerBytes_le f6
  have h3 : Config.prgBankSize * i ≤ Config.prgBankSize * 65535 :=
    Nat.mul_le_mul_left _ (by omega)
  simp only [prgOff, Config.headerSize]
  omega

/-- Every graphics bank index gives an offset below 2^32, and so does every record of it (R8). -/
theorem chrOff_lt (f6 prgn : Byte) {i : Nat} (h : i < 2 ^ 16) :
    chrOff f6 prgn i + 16 * 65535 + 1 < 2 ^ 32 := by
  have h1 := Config.sizes_exact.2
  have h2 := trainerBytes_le f6
  have h3 : Config.chrBankSize * i ≤ Config.chrBankSize * 65535 :=
    Nat.mul_le_mul_left _ (by omega)
  have h4 : Config.prgBankSize * prgn.toNat ≤ Config.prgBankSize * 255 :=
    Nat.mul_le_mul_left _ (by have := prgn.isLt; omega)
  simp only [chrOff, prgOff, Config.headerSize]
  omega

theorem prgBankSize_lt : Config.prgBankSize < 2 ^ 32 := by
  have h := Config.sizes_exact.1
  generalize Config.prgBankSize = p at h ⊢
  omega

theorem chrBankSize_lt : Config.chrBankSize < 2 ^ 32 := by
  have h := Config.sizes_exact.2
  generalize Config.prgBankSize = p at h
  generalize Config.chrBankSize = c at h ⊢
  omega

/-- Tile record `k` of a bank lies inside the bank (R144). -/
theorem tileOff_end_le (f6 prgn : Byte) (b : Nat) {k : Nat} (h : k < Config.tilesPerBank) :
    tileOff f6 prgn b k + 16 ≤ chrOff f6 prgn b + Config.chrBankSize := by
  have h1 := Config.tilesPerBank_mul
  simp only [tileOff, Config.tileSize]
  omega

/-! ### The title -/

/-- Where the title's end is found, when every byte up to the end of the buffer reads: the first
zero byte, or the end (R143). -/
theorem titleEnd_spec {m : Memory} (hm : m.wf = true) {p fuel : Nat}
    (h : p + fuel = m.length) :
    ∃ q, titleEnd m p fuel = some q ∧ p ≤ q ∧ q ≤ m.length ∧
      (∀ x, p ≤ x → x < q → m.read? x ≠ some 0) ∧ (q < m.length → m.read? q = some 0) := by
  induction fuel generalizing p with
  | zero => exact ⟨p, rfl, by omega, by omega, fun x h1 h2 => by omega, fun h1 => by omega⟩
  | succ fuel ih =>
    obtain ⟨b, hb⟩ := Memory.read?_of_lt hm (a := p) (by omega)
    by_cases hz : b = 0
    · exact ⟨p, by simp [titleEnd, hb, hz], by omega, by omega, fun x h1 h2 => by omega,
        fun _ => by rw [hb, hz]⟩
    · obtain ⟨q, hq, h1, h2, h3, h4⟩ := ih (p := p + 1) (by omega)
      refine ⟨q, by simpa only [titleEnd, hb, if_neg hz] using hq, by omega, h2,
        fun x hx hxq => ?_, h4⟩
      by_cases hxp : x = p
      · subst hxp
        simpa [hb] using hz
      · exact h3 x (by omega) hxq

theorem titleStart_le (m : Memory) (t0 : Nat) : titleStart m t0 ≤ t0 + 1 := by
  unfold titleStart
  split <;> omega

end Sys2Proof.Machine
end

