-- ==== Sys2Proof/Laws/Exec.lean ====
section
/-! SUPPORT. What a command and a step can do, said once, and what the invariant of R25 gives to the
meanings. -/

namespace Sys2Proof.Machine

/-- An accessor changes nothing of the block: it answers, or stops (R14). -/
theorem exec_accessor_onlyAnswers {i : Instr} (h : i.isAccessor = true) (s : State) :
    OnlyAnswers s (exec i s) := by
  have hv := checkedView_onlyAnswers
  have hr := raise_onlyAnswers
  have hd := respond_onlyAnswers
  cases i with
  | decode => cases h
  | reset => cases h
  | prgcnt => exact whenReady_onlyAnswers (withByte_onlyAnswers fun _ => hd _ _ _ s)
  | chrcnt => exact whenReady_onlyAnswers (withByte_onlyAnswers fun _ => hd _ _ _ s)
  | mirror => exact whenReady_onlyAnswers (withByte_onlyAnswers fun _ => hd _ _ _ s)
  | battery => exact whenReady_onlyAnswers (withByte_onlyAnswers fun _ => hd _ _ _ s)
  | trainer => exact whenReady_onlyAnswers (withByte_onlyAnswers fun _ => hd _ _ _ s)
  | mapper =>
    exact whenReady_onlyAnswers (withByte_onlyAnswers fun _ => withByte_onlyAnswers fun _ =>
      hd _ _ _ s)
  | ramcnt => exact whenReady_onlyAnswers (withByte_onlyAnswers fun _ => hd _ _ _ s)
  | prgoff n => exact whenReady_onlyAnswers (withByte_onlyAnswers fun _ => hd _ _ _ s)
  | chroff n =>
    exact whenReady_onlyAnswers (withByte_onlyAnswers fun _ => withByte_onlyAnswers fun _ =>
      hd _ _ _ s)
  | prgslice n =>
    exact whenReady_onlyAnswers (withByte_onlyAnswers fun _ => ite_onlyAnswers (hr _ s)
      (withByte_onlyAnswers fun _ => hv _ _ s))
  | chrslice n =>
    exact whenReady_onlyAnswers (withByte_onlyAnswers fun _ => ite_onlyAnswers (hr _ s)
      (withByte_onlyAnswers fun _ => withByte_onlyAnswers fun _ => hv _ _ s))
  | trnslice => exact whenReady_onlyAnswers (withByte_onlyAnswers fun _ => hv _ _ s)
  | title =>
    refine whenReady_onlyAnswers (withByte_onlyAnswers fun _ => withByte_onlyAnswers fun _ =>
      withByte_onlyAnswers fun _ => ite_onlyAnswers (hd _ _ _ s) ?_)
    split
    · exact respondView_onlyAnswers _ _ s
    · exact fault_onlyAnswers _ s
  | tile b k =>
    exact whenReady_onlyAnswers (withByte_onlyAnswers fun _ => ite_onlyAnswers (hr _ s)
      (ite_onlyAnswers (hr _ s) (withByte_onlyAnswers fun _ => withByte_onlyAnswers fun _ =>
        ite_onlyAnswers (respondView_onlyAnswers _ _ s) (hr _ s))))

/-- The four ways `DECODE` ends (R100; log entry 6). -/
theorem execDecode_cases (s : State) :
    (Config.lenMax < (bulkOperand s).length ∧ execDecode s = .refused .operandTooLong) ∨
    ((bulkOperand s).length ≤ Config.lenMax ∧ s.ready = true ∧
      execDecode s = raise .alreadyDecoded s) ∨
    ((bulkOperand s).length ≤ Config.lenMax ∧ s.ready = false ∧
      ((bulkOperand s).length < 16 ∨ (bulkOperand s).take 4 ≠ Config.magic) ∧
      execDecode s = raise .headerMismatch s) ∨
    ((bulkOperand s).length ≤ Config.lenMax ∧ s.ready = false ∧ 16 ≤ (bulkOperand s).length ∧
      (bulkOperand s).take 4 = Config.magic ∧
      execDecode s = respond 0 0 [] (s.latch (bulkOperand s))) := by
  by_cases hl : (bulkOperand s).length ≤ Config.lenMax
  · have hw : ¬ bulkWellFormed (bulkOperand s) = false := by simp [bulkWellFormed, hl]
    cases hs : s.ready with
    | true =>
      refine .inr (.inl ⟨hl, rfl, ?_⟩)
      simp only [execDecode, if_neg hw, hs, if_true]
    | false =>
      have hs' : ¬ false = true := by simp
      by_cases hn : (bulkOperand s).length < 16
      · refine .inr (.inr (.inl ⟨hl, rfl, .inl hn, ?_⟩))
        simp only [execDecode, if_neg hw, hs, if_neg hs', Config.headerSize]
        exact if_pos hn
      · by_cases hm : (bulkOperand s).take 4 = Config.magic
        · refine .inr (.inr (.inr ⟨hl, rfl, by omega, hm, ?_⟩))
          have hm' : magicMatches (bulkOperand s) = true := by simp [magicMatches, hm]
          simp only [execDecode, if_neg hw, hs, if_neg hs', Config.headerSize, if_neg hn, hm',
            if_true]
        · refine .inr (.inr (.inl ⟨hl, rfl, .inr hm, ?_⟩))
          have hm' : ¬ magicMatches (bulkOperand s) = true := by simp [magicMatches, hm]
          simp only [execDecode, if_neg hw, hs, Config.headerSize, if_neg hn, hm', if_false,
            Bool.false_eq_true]
  · refine .inl ⟨by omega, ?_⟩
    have hw : bulkWellFormed (bulkOperand s) = false := by simp [bulkWellFormed]; omega
    simp only [execDecode, if_pos hw]

/-- Everything a command can do when it answers a next state: give a response and nothing else,
latch a valid operand (`DECODE` in Idle), or clear the image (`RESET`). -/
theorem exec_cases {i : Instr} {s t : State} (h : exec i s = .next t) :
    (i ≠ .reset ∧ ∃ r, r.Shaped ∧ t = s.deliver r) ∨
    (i = .decode ∧ s.ready = false ∧ (bulkOperand s).length ≤ Config.lenMax ∧
      16 ≤ (bulkOperand s).length ∧ (bulkOperand s).take 4 = Config.magic ∧
      t = (s.latch (bulkOperand s)).deliver (okResponse 0 0 [])) ∨
    (i = .reset ∧ t = s.clear.deliver (okResponse 0 0 [])) := by
  by_cases ha : i.isAccessor = true
  · exact .inl ⟨fun hr => by simp [hr, Instr.isAccessor] at ha,
      exec_accessor_onlyAnswers ha s t h⟩
  · cases i with
    | decode =>
      simp only [exec] at h
      obtain ⟨-, he⟩ | ⟨-, -, he⟩ | ⟨-, -, -, he⟩ | ⟨h1, h2, h3, h4, he⟩ := execDecode_cases s <;>
        rw [he] at h
      · cases h
      · exact .inl ⟨by simp, raise_onlyAnswers _ s t h⟩
      · exact .inl ⟨by simp, raise_onlyAnswers _ s t h⟩
      · exact .inr (.inl ⟨rfl, h2, h1, h3, h4, (Host.Outcome.next.inj h).symm⟩)
    | reset => exact .inr (.inr ⟨rfl, (Host.Outcome.next.inj h).symm⟩)
    | _ => exact absurd rfl ha

/-! ### Steps by the event at the head -/

theorem step_idle {s : State} (h : s.input = []) : step s = .next s := by
  simp [step, h, idle]

theorem step_resetEvent {s : State} {rest : List HostEvent} (h : s.input = .resetEvent :: rest) :
    step s = .next s.clear.retire := by
  simp [step, h, takeResetEvent]

theorem step_command {s : State} {c : Command} {rest : List HostEvent} {i : Instr}
    (h : s.input = .command c :: rest) (hd : decode c.word = .instr i) : step s = exec i s := by
  simp [step, h, hd]

theorem step_illegal {s : State} {c : Command} {rest : List HostEvent}
    (h : s.input = .command c :: rest) (hd : ∀ i, decode c.word ≠ .instr i) :
    step s = raise .illegalCommand s := by
  simp only [step, h]
  split
  · rename_i i hi
    exact absurd hi (hd i)
  · rfl
  · rfl

/-- The bulk operand is the one beside the command at the head (R85). -/
theorem bulkOperand_head {s : State} {c : Command} {rest : List HostEvent}
    (h : s.input = .command c :: rest) : bulkOperand s = c.bulk := by
  simp [bulkOperand, h]

/-- Everything a step can do when it answers a next state. -/
theorem step_cases {s t : State} (h : step s = .next t) :
    (s.input = [] ∧ t = s) ∨
    (∃ rest, s.input = .resetEvent :: rest ∧ t = s.clear.retire) ∨
    (∃ c rest, s.input = .command c :: rest ∧ (∃ r, r.Shaped ∧ t = s.deliver r) ∧
      decode c.word ≠ .instr .reset) ∨
    (∃ c rest, s.input = .command c :: rest ∧ decode c.word = .instr .decode ∧ s.ready = false ∧
      c.bulk.length ≤ Config.lenMax ∧ 16 ≤ c.bulk.length ∧ c.bulk.take 4 = Config.magic ∧
      t = (s.latch c.bulk).deliver (okResponse 0 0 [])) ∨
    (∃ c rest, s.input = .command c :: rest ∧ decode c.word = .instr .reset ∧
      t = s.clear.deliver (okResponse 0 0 [])) := by
  cases hi : s.input with
  | nil =>
    rw [step_idle hi] at h
    exact .inl ⟨rfl, (Host.Outcome.next.inj h).symm⟩
  | cons e rest =>
    cases e with
    | resetEvent =>
      rw [step_resetEvent hi] at h
      exact .inr (.inl ⟨rest, rfl, (Host.Outcome.next.inj h).symm⟩)
    | command c =>
      cases hd : decode c.word with
      | instr i =>
        rw [step_command hi hd] at h
        have hb := bulkOperand_head hi
        obtain ⟨hne, hr⟩ | ⟨rfl, h1, h2, h3, h4, h5⟩ | ⟨rfl, h1⟩ := exec_cases h
        · exact .inr (.inr (.inl ⟨c, rest, rfl, hr, by rw [hd]; simpa using hne⟩))
        · rw [hb] at h2 h3 h4 h5
          exact .inr (.inr (.inr (.inl ⟨c, rest, rfl, hd, h1, h2, h3, h4, h5⟩)))
        · exact .inr (.inr (.inr (.inr ⟨c, rest, rfl, hd, h1⟩)))
      | illegalOpcode =>
        rw [step_illegal hi (by simp [hd])] at h
        exact .inr (.inr (.inl ⟨c, rest, rfl, raise_onlyAnswers _ s t h, by simp [hd]⟩))
      | reservedBits =>
        rw [step_illegal hi (by simp [hd])] at h
        exact .inr (.inr (.inl ⟨c, rest, rfl, raise_onlyAnswers _ s t h, by simp [hd]⟩))

/-! ### What the invariant gives -/

/-- In state Ready the header exists (R25). -/
theorem StateInv.header {s : State} (h : StateInv s) (hr : s.ready = true) {a : Nat} (ha : a < 16) :
    ∃ b, s.img.read? a = some b := by
  have hl := (h.2.2.2 hr).1
  exact Memory.read?_of_lt h.1 (by simp only [State.len, Config.headerSize] at hl; omega)

/-- A response leaves the block's state, so it keeps the invariant. -/
theorem StateInv.deliver {s : State} (h : StateInv s) (r : Response) : StateInv (s.deliver r) := h

/-- The state after a latch of a valid operand meets the invariant. -/
theorem latch_inv (s : State) {bs : List Byte} (h1 : bs.length ≤ Config.lenMax)
    (h2 : 16 ≤ bs.length) (h3 : bs.take 4 = Config.magic) : StateInv (s.latch bs) := by
  refine ⟨by simp, by simpa using h1, by simp, fun _ => ⟨by simpa [Config.headerSize] using h2, ?_⟩⟩
  rw [State.latch_img, Memory.memRead_eq_take (by simp) (by simp; omega)]
  simpa using h3

/-- The state after a clear meets the invariant. -/
theorem clear_inv (s : State) : StateInv s.clear := by
  refine ⟨rfl, by simp, fun _ => rfl, fun h => ?_⟩
  simp at h

end Sys2Proof.Machine
end

