-- ==== Sys2Proof/Laws/PerInstr.lean ====
section
/-! SUPPORT. Statements made of every instruction, one lemma per constructor of Instr: the word an
instruction encodes to matches a row of the opcode map (30_encoding.md R86), that is, it is a
well-formed command word (R88). -/

namespace Sys2Proof.Laws.EncodedWord

/-- The encoded word selects a row of the opcode map, and it is the row that carries the
instruction's mnemonic. -/
def Statement (i : Instr) : Prop :=
  ∃ r ∈ opcodeRows, r.selects (encode i) = true ∧ r.mnemonic = i.mnemonic

theorem of_row {i : Instr} (p m : CommandWord) (h1 : (⟨i.mnemonic, p, m⟩ : OpcodeRow) ∈ opcodeRows)
    (h2 : encode i &&& m = p) : Statement i :=
  ⟨_, h1, by simp [OpcodeRow.selects, h2], rfl⟩

theorem wordI_masked (op : BitVec 8) (n : BitVec 16) :
    wordI op n &&& 0xFFFF0000#32 = BitVec.ofNat 32 (op.toNat * 2 ^ 24) := by
  have h1 := n.isLt
  have h2 := op.isLt
  apply BitVec.eq_of_toNat_eq
  rw [maskI_toNat, wordI_toNat, BitVec.toNat_ofNat]
  omega

theorem wordT_masked (op b : BitVec 8) (k : BitVec 16) :
    wordT op b k &&& 0xFF000000#32 = BitVec.ofNat 32 (op.toNat * 2 ^ 24) := by
  have h1 := k.isLt
  have h2 := b.isLt
  have h3 := op.isLt
  apply BitVec.eq_of_toNat_eq
  rw [maskT_toNat, wordT_toNat, BitVec.toNat_ofNat]
  omega

theorem decode : Statement .decode := of_row 0x01000000 0xFFFFFFFF (by decide) (by decide)
theorem reset : Statement .reset := of_row 0x02000000 0xFFFFFFFF (by decide) (by decide)
theorem prgcnt : Statement .prgcnt := of_row 0x10000000 0xFFFFFFFF (by decide) (by decide)
theorem chrcnt : Statement .chrcnt := of_row 0x11000000 0xFFFFFFFF (by decide) (by decide)
theorem mirror : Statement .mirror := of_row 0x12000000 0xFFFFFFFF (by decide) (by decide)
theorem battery : Statement .battery := of_row 0x13000000 0xFFFFFFFF (by decide) (by decide)
theorem trainer : Statement .trainer := of_row 0x14000000 0xFFFFFFFF (by decide) (by decide)
theorem mapper : Statement .mapper := of_row 0x15000000 0xFFFFFFFF (by decide) (by decide)
theorem ramcnt : Statement .ramcnt := of_row 0x16000000 0xFFFFFFFF (by decide) (by decide)
theorem prgoff (n : BitVec 16) : Statement (.prgoff n) :=
  of_row 0x20000000 0xFFFF0000 (by simp [opcodeRows, regionRows, Instr.mnemonic])
    (wordI_masked 0x20 n)
theorem chroff (n : BitVec 16) : Statement (.chroff n) :=
  of_row 0x21000000 0xFFFF0000 (by simp [opcodeRows, regionRows, Instr.mnemonic])
    (wordI_masked 0x21 n)
theorem prgslice (n : BitVec 16) : Statement (.prgslice n) :=
  of_row 0x22000000 0xFFFF0000 (by simp [opcodeRows, regionRows, Instr.mnemonic])
    (wordI_masked 0x22 n)
theorem chrslice (n : BitVec 16) : Statement (.chrslice n) :=
  of_row 0x23000000 0xFFFF0000 (by simp [opcodeRows, regionRows, Instr.mnemonic])
    (wordI_masked 0x23 n)
theorem trnslice : Statement .trnslice := of_row 0x24000000 0xFFFFFFFF (by decide) (by decide)
theorem title : Statement .title := of_row 0x25000000 0xFFFFFFFF (by decide) (by decide)
theorem tile (b : BitVec 8) (k : BitVec 16) : Statement (.tile b k) :=
  of_row 0x26000000 0xFF000000 (by simp [opcodeRows, regionRows, Instr.mnemonic])
    (wordT_masked 0x26 b k)

end Sys2Proof.Laws.EncodedWord
end

