-- ==== Sys2Proof/Tests/Slice0.lean ====
section
/-! SUPPORT. The model's own tests. Every expected result is a vector or a worked example of the
spec: V, S and T numbers are those of 95_test_vectors.md, other sources are named. The last part
gives, for each statement of the obligations that has hypotheses, a witness that meets them. -/

namespace Sys2Proof.Tests

open Sys2Proof.Machine

/-! ### Helpers -/

/-- A 16-byte header with these bytes at offsets 4 to 8 and seven zero bytes after them. -/
def header (prgn chrn f6 f7 ramb : Byte) : List Byte :=
  [0x4E, 0x45, 0x53, 0x1A, prgn, chrn, f6, f7, ramb, 0, 0, 0, 0, 0, 0, 0]

/-- Image D of 95_test_vectors.md section 2.0. -/
def imageD : List Byte :=
  [0x4E, 0x45, 0x53, 0x1A, 0x00, 0x00, 0x02, 0xFF, 0x00, 0xAA, 0xBB, 0xCC, 0xDD, 0xEE, 0xFF, 0x11]

/-- Idle, with one command pending. -/
def idle (w : CommandWord) (bulk : List Byte) : State :=
  { ready := false, img := [], input := [.command ⟨w, bulk⟩], responses := [] }

/-- Ready with this image, with one command pending. -/
def ready (bytes : List Byte) (w : CommandWord) : State :=
  { ready := true, img := Memory.ofBytes bytes, input := [.command ⟨w, []⟩], responses := [] }

/-- The response a step gives, when it gives one and answers a next state. -/
def answer (s : State) : Option Response :=
  match step s with
  | .next t => t.responses.getLast?
  | .fault _ => none
  | .refused _ => none

/-- `ready`, `IMG` and `LEN` after a step. -/
def blockAfter (s : State) : Option (Bool × Memory × Nat) :=
  match step s with
  | .next t => some (t.ready, t.img, t.len)
  | .fault _ => none
  | .refused _ => none

/-! ### Decoding: words written out from R81 to R86 (V140 to V161) -/

theorem test_decode_words_n : decode 0x01000000 = .instr .decode ∧
    decode 0x02000000 = .instr .reset ∧ decode 0x10000000 = .instr .prgcnt ∧
    decode 0x11000000 = .instr .chrcnt ∧ decode 0x12000000 = .instr .mirror ∧
    decode 0x13000000 = .instr .battery ∧ decode 0x14000000 = .instr .trainer ∧
    decode 0x15000000 = .instr .mapper ∧ decode 0x16000000 = .instr .ramcnt ∧
    decode 0x24000000 = .instr .trnslice ∧ decode 0x25000000 = .instr .title := by decide

theorem test_decode_words_i : decode 0x2000FFFF = .instr (.prgoff 65535) ∧
    decode 0x21001234 = .instr (.chroff 4660) ∧ decode 0x22000100 = .instr (.prgslice 256) ∧
    decode 0x23000001 = .instr (.chrslice 1) := by decide

theorem test_decode_words_t : decode 0x26000203 = .instr (.tile 3 2) ∧
    decode 0x2601FF00 = .instr (.tile 0 511) ∧ decode 0x26FFFFFF = .instr (.tile 255 65535) := by
  decide

theorem test_decode_illegal_opcodes : decode 0x00000000 = .illegalOpcode ∧
    decode 0x03000000 = .illegalOpcode ∧ decode 0x17000000 = .illegalOpcode ∧
    decode 0x27000000 = .illegalOpcode ∧ decode 0xFF000000 = .illegalOpcode := by decide

theorem test_decode_reserved_bits : decode 0x10000001 = .reservedBits ∧
    decode 0x10800000 = .reservedBits ∧ decode 0x20010000 = .reservedBits ∧
    decode 0x23FF0000 = .reservedBits ∧ decode 0x24000001 = .reservedBits ∧
    decode 0x25000100 = .reservedBits := by decide

theorem test_decodeTableWord : decodeTableWord 32 0x2100000A = some (.chroff 10) ∧
    decodeTableWord 32 0xFF000000 = none := by decide

/-! ### WellFormed: each check refuses an ill-formed term -/

theorem test_wellFormed_refuses_opcode : CommandWord.wellFormed 0x03000000 = false := by decide

theorem test_wellFormed_refuses_reserved_n : CommandWord.wellFormed 0x10800000 = false := by decide

theorem test_wellFormed_refuses_reserved_i : CommandWord.wellFormed 0x20010000 = false := by decide

theorem test_wellFormed_accepts : CommandWord.wellFormed 0x26FFFFFF = true := by decide

theorem test_bulkWellFormed_refuses_overlong :
    bulkWellFormed (List.replicate (2 ^ 32) 0) = false := by
  simp only [bulkWellFormed, List.length_replicate, Config.lenMax, decide_eq_false_iff_not]
  omega

/-! ### Reset, the reset event, and what is fetched after reset -/

theorem test_accessor_first_after_reset :
    answer (State.reset.withFetchWord 32 0x10000000) = some ⟨.error .notDecoded, 0, 0, []⟩ := by
  decide

theorem test_reset_event : blockAfter { ready imageD 0 with input := [.resetEvent] } =
    some (false, [], 0) := by decide

/-! ### Construction (V1 to V14) -/

/-- V3. -/
theorem test_decode_latches : answer (idle 0x01000000 (header 0 0 0 0 0)) = some ⟨.ok, 0, 0, []⟩ ∧
    blockAfter (idle 0x01000000 (header 0 0 0 0 0)) =
      some (true, Memory.ofBytes (header 0 0 0 0 0), 16) := by decide

/-- V2, V4, V7: one byte short; fourth magic byte wrong; magic reversed. -/
theorem test_decode_mismatch :
    answer (idle 0x01000000 ((header 0 0 0 0 0).take 15)) = some ⟨.error .headerMismatch, 0, 0, []⟩ ∧
    answer (idle 0x01000000 ((header 0 0 0 0 0).set 3 0x1B)) =
      some ⟨.error .headerMismatch, 0, 0, []⟩ ∧
    blockAfter (idle 0x01000000 ([0x1A, 0x53, 0x45, 0x4E] ++ (header 0 0 0 0 0).drop 4)) =
      some (false, [], 0) := by decide

/-- V11: the state check comes before `HeaderMismatch`. -/
theorem test_decode_when_ready :
    answer (ready imageD 0x01000000) = some ⟨.error .alreadyDecoded, 0, 0, []⟩ ∧
    blockAfter (ready imageD 0x01000000) = some (true, Memory.ofBytes imageD, 16) := by decide

/-- V12 and V129: `RESET` clears; with a reserved bit it does not. -/
theorem test_reset : blockAfter (ready imageD 0x02000000) = some (false, [], 0) ∧
    blockAfter (ready imageD 0x02000001) = some (true, Memory.ofBytes imageD, 16) ∧
    answer (ready imageD 0x02000001) = some ⟨.error .illegalCommand, 0, 0, []⟩ := by decide

/-! ### Metadata (V20 to V53) -/

/-- V21. -/
theorem test_prgcnt : answer (ready (header 2 1 0x1D 0x20 3) 0x10000000) = some ⟨.ok, 2, 0, []⟩ := by
  decide

/-- V25. -/
theorem test_chrcnt : answer (ready (header 255 255 4 0 0) 0x11000000) =
    some ⟨.ok, 255, 0, []⟩ := by decide

/-- V33 and V35: four-screen wins over bit 0; bit 0 alone is Horizontal. -/
theorem test_mirror : answer (ready (header 1 0 0x09 0x20 0) 0x12000000) = some ⟨.ok, 2, 0, []⟩ ∧
    answer (ready (header 1 0 0xF7 0x20 0) 0x12000000) = some ⟨.ok, 1, 0, []⟩ := by decide

/-- V34: bits 3 and 0 clear, all others set. -/
theorem test_mirror_vertical : answer (ready (header 1 0 0xF6 0x20 0) 0x12000000) =
    some ⟨.ok, 0, 0, []⟩ := by decide

/-- R113's corner cases. -/
theorem test_battery : answer (ready (header 1 0 0x02 0 0) 0x13000000) = some ⟨.ok, 1, 0, []⟩ ∧
    answer (ready (header 1 0 0xFD 0 0) 0x13000000) = some ⟨.ok, 0, 0, []⟩ := by decide

/-- V112: the flag is reported although the region is missing; V21 for the other bits. -/
theorem test_trainer : answer (ready (header 0 0 0x04 0 0) 0x14000000) = some ⟨.ok, 1, 0, []⟩ ∧
    answer (ready (header 0 0 0xFB 0 0) 0x14000000) = some ⟨.ok, 0, 0, []⟩ := by decide

/-- S4, and V43: low nibbles ignored. -/
theorem test_mapper : answer (ready (header 1 0 0x10 0x20 0) 0x15000000) =
      some ⟨.ok, 0x21, 0, []⟩ ∧
    answer (ready (header 1 0 0xFF 0x0F 0) 0x15000000) = some ⟨.ok, 15, 0, []⟩ := by decide

/-- V50, V53. -/
theorem test_ramcnt : answer (ready (header 1 0 0 0 0) 0x16000000) = some ⟨.ok, 1, 0, []⟩ ∧
    answer (ready (header 1 0 0 0 0xFF) 0x16000000) = some ⟨.ok, 255, 0, []⟩ := by decide

/-! ### Offsets (V60 to V76); numbers under the recommended sizes of R6 -/

/-- S7: 16 without a trainer and 528 with one. -/
theorem test_prgoff_zero : answer (ready imageD 0x20000000) = some ⟨.ok, 16, 0, []⟩ ∧
    answer (ready (header 0 0 4 0 0) 0x20000000) = some ⟨.ok, 528, 0, []⟩ := by decide

/-- V68: the largest index of image B. -/
theorem test_prgoff_largest (h : Config.prgBankSize = 16384) :
    execPrgoff 65535 (ready (header 2 1 0x1D 0x20 3) 0x2000FFFF) =
      respond 1073725968 0 [] (ready (header 2 1 0x1D 0x20 3) 0x2000FFFF) := by
  have h6 : (ready (header 2 1 0x1D 0x20 3) 0x2000FFFF).img.read? 6 = some 0x1D := by decide
  have ht : trainerBytes 0x1D = 512 := by decide
  rw [execPrgoff, whenReady_ready rfl, withByte_some h6, prgOff, ht, h]
  rfl

/-- V69: `CHROFF 65535` of image B. -/
theorem test_chroff_largest (hp : Config.prgBankSize = 16384) (hc : Config.chrBankSize = 8192) :
    execChroff 65535 (ready (header 2 1 0x1D 0x20 3) 0x2100FFFF) =
      respond 536896016 0 [] (ready (header 2 1 0x1D 0x20 3) 0x2100FFFF) := by
  have h4 : (ready (header 2 1 0x1D 0x20 3) 0x2100FFFF).img.read? 4 = some 2 := by decide
  have h6 : (ready (header 2 1 0x1D 0x20 3) 0x2100FFFF).img.read? 6 = some 0x1D := by decide
  have ht : trainerBytes 0x1D = 512 := by decide
  rw [execChroff, whenReady_ready rfl, withByte_some h4, withByte_some h6, chrOff, prgOff, ht, hp,
    hc]
  rfl

/-- V73: with no program bank the graphics banks start at `PRGBASE`. -/
theorem test_chroff_zero : answer (ready imageD 0x21000000) = some ⟨.ok, 16, 0, []⟩ := by decide

/-! ### Regions (V80 to V117, T1 to T8) -/

/-- V104: no program bank. -/
theorem test_prgslice_no_bank : answer (ready imageD 0x22000000) =
    some ⟨.error .rangeError, 0, 0, []⟩ := by decide

/-- V107: 16 + 8192 is past the 116 bytes of image E. -/
theorem test_chrslice_truncated (hc : Config.chrBankSize = 8192) :
    execChrslice 0 (ready (header 0 1 0 0 0 ++ List.replicate 100 0x55) 0x23000000) =
      raise .rangeError (ready (header 0 1 0 0 0 ++ List.replicate 100 0x55) 0x23000000) := by
  have h5 : (ready (header 0 1 0 0 0 ++ List.replicate 100 0x55) 0x23000000).img.read? 5 = some 1 := by
    decide
  have h4 : (ready (header 0 1 0 0 0 ++ List.replicate 100 0x55) 0x23000000).img.read? 4 = some 0 := by
    decide
  have h6 : (ready (header 0 1 0 0 0 ++ List.replicate 100 0x55) 0x23000000).img.read? 6 = some 0 := by
    decide
  rw [execChrslice, whenReady_ready rfl, withByte_some h5, if_neg (by decide), withByte_some h6,
    withByte_some h4]
  refine checkedView_not_fits ?_
  rw [hc, chrOff, prgOff, hc]
  decide

/-- V105, V111: the empty view; one byte short of the trainer. -/
theorem test_trnslice : answer (ready imageD 0x24000000) = some ⟨.ok, 16, 0, []⟩ ∧
    answer (ready (header 1 0 4 0 0 ++ List.replicate 511 0x77) 0x24000000) =
      some ⟨.error .rangeError, 0, 0, []⟩ := by decide +kernel

/-- V114: exactly the trainer. -/
theorem test_trnslice_exact :
    execTrnslice (ready (header 1 0 4 0 0 ++ List.replicate 512 0x77) 0x24000000) =
      respond 16 512 (List.replicate 512 0x77)
        (ready (header 1 0 4 0 0 ++ List.replicate 512 0x77) 0x24000000) := by
  have h6 : (ready (header 1 0 4 0 0 ++ List.replicate 512 0x77) 0x24000000).img.read? 6 =
      some 4 := by decide +kernel
  have ht : trainerBytes 4 = 512 := by decide
  have hl : (ready (header 1 0 4 0 0 ++ List.replicate 512 0x77) 0x24000000).img.length = 528 := by
    simp only [ready, Memory.ofBytes_length, List.length_append, List.length_replicate, header,
      List.length_cons, List.length_nil]
  rw [execTrnslice, whenReady_ready rfl, withByte_some h6, ht,
    checkedView_fits (Nat.le_of_eq hl.symm)]
  refine respondView_some ((Memory.memRead_eq_take (Memory.ofBytes_wf _)
    (Nat.le_of_eq hl.symm)).trans (congrArg some ?_))
  have hb : (header 1 0 4 0 0 ++ List.replicate 512 0x77).drop 16 = List.replicate 512 0x77 :=
    List.drop_left (l₁ := header 1 0 4 0 0)
  rw [Memory.ofBytes_bytes, Config.headerSize, hb]
  exact List.take_of_length_le (Nat.le_of_eq List.length_replicate)

/-- T1, T2, T3: absent at the end; a marker with nothing after it; exactly one marker skipped. -/
theorem test_title_start : answer (ready (header 0 0 0 0 0) 0x25000000) = some ⟨.ok, 16, 0, []⟩ ∧
    answer (ready (header 0 0 0 0 0 ++ [0xFF]) 0x25000000) = some ⟨.ok, 17, 0, []⟩ ∧
    answer (ready (header 0 0 0 0 0 ++ [0xFF, 0xFF, 0x41, 0x00]) 0x25000000) =
      some ⟨.ok, 17, 2, [0xFF, 0x41]⟩ := by decide

/-- T4, T5, T6, T8: empty title; no terminator; the first terminator; `FF` inside. -/
theorem test_title_end : answer (ready (header 0 0 0 0 0 ++ [0x00, 0x41]) 0x25000000) =
      some ⟨.ok, 16, 0, []⟩ ∧
    answer (ready (header 0 0 0 0 0 ++ [0x41, 0x42, 0x43]) 0x25000000) =
      some ⟨.ok, 16, 3, [0x41, 0x42, 0x43]⟩ ∧
    answer (ready (header 0 0 0 0 0 ++ [0x41, 0x00, 0x42, 0x00]) 0x25000000) =
      some ⟨.ok, 16, 1, [0x41]⟩ ∧
    answer (ready (header 0 0 0 0 0 ++ [0x41, 0xFF, 0x42, 0x00]) 0x25000000) =
      some ⟨.ok, 16, 3, [0x41, 0xFF, 0x42]⟩ := by decide

/-- R144's corner case: no graphics bank. -/
theorem test_tile_no_bank : answer (ready imageD 0x26000000) =
    some ⟨.error .rangeError, 0, 0, []⟩ := by decide

/-- V108: the record's own 16 bytes are there, the whole bank is not. -/
theorem test_tile_truncated_bank (hc : Config.chrBankSize = 8192) :
    execTile 0 0 (ready (header 0 1 0 0 0 ++ List.replicate 100 0x55) 0x26000000) =
      raise .rangeError (ready (header 0 1 0 0 0 ++ List.replicate 100 0x55) 0x26000000) := by
  have h5 : (ready (header 0 1 0 0 0 ++ List.replicate 100 0x55) 0x26000000).img.read? 5 = some 1 := by
    decide
  have h4 : (ready (header 0 1 0 0 0 ++ List.replicate 100 0x55) 0x26000000).img.read? 4 = some 0 := by
    decide
  have h6 : (ready (header 0 1 0 0 0 ++ List.replicate 100 0x55) 0x26000000).img.read? 6 = some 0 := by
    decide
  rw [execTile, whenReady_ready rfl, withByte_some h5, if_neg (by decide),
    if_neg (by rw [Config.tilesPerBank, hc]; decide), withByte_some h6, withByte_some h4]
  refine if_neg ?_
  rw [hc, chrOff, prgOff, hc]
  decide

/-! ### Errors and priority (V120 to V130) -/

/-- V122, V123, V125: state before range; word before state; word before everything. -/
theorem test_priority : answer (idle 0x2200FFFF []) = some ⟨.error .notDecoded, 0, 0, []⟩ ∧
    answer (idle 0x10000001 []) = some ⟨.error .illegalCommand, 0, 0, []⟩ ∧
    answer (ready imageD 0x01000001) = some ⟨.error .illegalCommand, 0, 0, []⟩ := by decide

/-! ### Pseudo-instructions and assembler (R90 to R92) -/

theorem test_assemble : assembleLine 0 "TILE 0, 511".toList = some [⟨.tile 0 511, none⟩] ∧
    assembleLine 0 "PRGOFF 0x1F ; comment".toList = some [⟨.prgoff 31, none⟩] ∧
    assembleLine 0 "DECODE imgA".toList = some [⟨.decode, some "imgA"⟩] := by decide

theorem test_assemble_alias : assembleLine 0 "prg_bank_offset(1)".toList =
      some [⟨.prgoff 1, none⟩] ∧
    assembleLine 0 "PRGOFF 65536".toList = none ∧
    (assembleLine 0 "DESCRIBE".toList).map List.length = some 8 := by decide

/-! ### Witnesses: for each statement with hypotheses, a state and operands that meet them -/

/-- A Ready state with image D meets the hypotheses of every statement that asks for the invariant,
state Ready and presentable input: the metadata and offset statements, `AStepFromTheInvariantAlwaysAnswers`,
`ARunAnswersEveryCommandExactlyOnce`, `ChroffZeroAndPrgoffOfTheBankCountAgree`,
`TileViewsTheRecordOrRaisesRangeError` and their like. -/
theorem witness_ready_state : StateInv (ready imageD 0x10000000) ∧
    InputPresentable (ready imageD 0x10000000) ∧ (ready imageD 0x10000000).ready = true := by decide

theorem witness_EveryLegalWordIsTheEncodingOfItsInstruction :
    decode 0x26000203 = .instr (.tile 3 2) := by decide

theorem witness_DecoderAcceptsExactlyTheOpcodeMap : decode 0x2000FFFF = .instr (.prgoff 65535) ∧
    ∃ r ∈ opcodeRows, (0x2000FFFF : CommandWord) &&& r.mask = r.pattern := by decide

theorem witness_NoWordMatchesTwoRows : ∃ r ∈ opcodeRows, ∃ r' ∈ opcodeRows,
    (0x26FFFFFF : CommandWord) &&& r.mask = r.pattern ∧
      (0x26FFFFFF : CommandWord) &&& r'.mask = r'.pattern := by decide

theorem witness_AStepExecutesTheDecodedCommand :
    (idle 0x10000000 []).input = .command ⟨0x10000000, []⟩ :: [] ∧
      decode 0x10000000 = .instr .prgcnt := by decide

theorem witness_AWordThatMatchesNoRowRaisesIllegalCommand :
    (idle 0x00000000 []).input = .command ⟨0x00000000, []⟩ :: [] ∧
      ∀ r ∈ opcodeRows, (0x00000000 : CommandWord) &&& r.mask ≠ r.pattern := by decide

/-- Each clause at the ends of its range. -/
theorem witness_UnassignedOpcodesAndReservedBitsRaiseIllegalCommand :
    (∀ w ∈ [0x00000000#32, 0x03000000, 0x0FFFFFFF, 0x17000000, 0x1F000000, 0x27000000, 0xFFFFFFFF],
      w.toNat / 2 ^ 24 = 0x00 ∨ (0x03 ≤ w.toNat / 2 ^ 24 ∧ w.toNat / 2 ^ 24 ≤ 0x0F) ∨
      (0x17 ≤ w.toNat / 2 ^ 24 ∧ w.toNat / 2 ^ 24 ≤ 0x1F) ∨
      (0x27 ≤ w.toNat / 2 ^ 24 ∧ w.toNat / 2 ^ 24 ≤ 0xFF)) ∧
    (∀ w ∈ [0x01000001#32, 0x25800000],
      w.toNat / 2 ^ 24 ∈ [0x01, 0x02, 0x10, 0x11, 0x12, 0x13, 0x14, 0x15, 0x16, 0x24, 0x25] ∧
      w.toNat % 2 ^ 24 ≠ 0) ∧
    (∀ w ∈ [0x20010000#32, 0x23800000],
      w.toNat / 2 ^ 24 ∈ [0x20, 0x21, 0x22, 0x23] ∧ w.toNat / 2 ^ 16 % 2 ^ 8 ≠ 0) := by
  simp

/-- Also the second clause of `ResetLeavesIdleWithNoImage`. -/
theorem witness_TheResetEventClearsTheBlockWithoutAResponse :
    ({ ready imageD 0 with input := [.resetEvent] } : State).input = .resetEvent :: [] := by decide

theorem witness_ResetLeavesIdleWithNoImage :
    (ready imageD 0x02000000).input = .command ⟨0x02000000, []⟩ :: [] := by decide

theorem witness_WithNothingPendingAStepChangesNothing : State.reset.input = [] := by decide

/-- The clauses for state Ready and (by `RESET`) for state Idle after the step. -/
theorem witness_EveryStepKeepsTheStateInvariant :
    (∃ t, StateInv (ready imageD 0x10000000) ∧ step (ready imageD 0x10000000) = .next t ∧
      (ready imageD 0x10000000).ready = true ∧ t.ready = true) ∧
    ∃ t, StateInv (ready imageD 0x02000000) ∧ step (ready imageD 0x02000000) = .next t ∧
      t.ready = false :=
  ⟨⟨_, by decide, rfl, rfl, rfl⟩, ⟨_, by decide, rfl, rfl⟩⟩

theorem witness_OnlyDecodeAndResetWriteTheBlock :
    ∃ t, step (idle 0x01000000 imageD) = .next t := ⟨_, rfl⟩

theorem witness_AStepReadsOnlyItsOwnEvent :
    ∃ t, step ⟨true, Memory.ofBytes imageD, [.command ⟨0x15000000, []⟩, .resetEvent], []⟩ =
      .next t := ⟨_, rfl⟩

theorem witness_EveryCommandAnswersOnceAndErrorsChangeNothing :
    (ready imageD 0x22000000).input = .command ⟨0x22000000, []⟩ :: [] ∧
    ∃ (t : State) (r : Response), step (ready imageD 0x22000000) = .next t ∧
      t.responses = (ready imageD 0x22000000).responses ++ [r] ∧ r.st = .error .rangeError :=
  ⟨rfl, _, _, rfl, rfl, rfl⟩

theorem witness_AfterAnErrorTheNextEventRunsAsIfNothingHadFailed :
    ∃ s t u : State, s.input = .command ⟨0x22000000, []⟩ :: .command ⟨0x10000000, []⟩ :: [] ∧
      step s = .next t ∧ t.responses = s.responses ++ [⟨.error .rangeError, 0, 0, []⟩] ∧
      step t = .next u :=
  ⟨⟨true, Memory.ofBytes imageD, [.command ⟨0x22000000, []⟩, .command ⟨0x10000000, []⟩], []⟩, _, _,
    rfl, rfl, rfl, rfl⟩

theorem witness_InReadyEveryCommandButResetIsPure :
    ∃ t, Instr.mapper ≠ .reset ∧ (ready imageD 0x15000000).ready = true ∧
      (ready imageD 0x01000000).ready = true ∧
      (ready imageD 0x01000000).img = (ready imageD 0x15000000).img ∧
      (bulkOperand (ready imageD 0x01000000)).length ≤ Config.lenMax ∧
      exec .mapper (ready imageD 0x15000000) = .next t :=
  ⟨_, by decide, rfl, rfl, rfl, by decide, rfl⟩

/-- Image D and the same image with header bytes 9 to 15 zero and bits 3:0 of byte 7 clear. -/
theorem witness_NoResultDependsOnTheUnusedHeaderBits :
    let s := ready imageD 0x15000000
    let u := ready (header 0 0 0x02 0xF0 0) 0x15000000
    StateInv s ∧ StateInv u ∧ s.ready = true ∧ u.ready = true ∧ u.len = s.len ∧
      (∀ a, ¬ (9 ≤ a ∧ a ≤ 15) → a ≠ 7 → u.img.read? a = s.img.read? a) ∧
      (∀ b b', s.img.read? 7 = some b → u.img.read? 7 = some b' → b'.toNat / 16 = b.toNat / 16) ∧
      (bulkOperand u).length ≤ Config.lenMax ∧ ∃ t, exec .mapper s = .next t := by
  refine ⟨by decide, by decide, rfl, rfl, rfl, fun a h1 h2 => ?_, fun b b' hb hb' => ?_, by decide,
    _, rfl⟩
  · by_cases h : a < 16
    · have : a = 0 ∨ a = 1 ∨ a = 2 ∨ a = 3 ∨ a = 4 ∨ a = 5 ∨ a = 6 ∨ a = 8 := by omega
      rcases this with rfl | rfl | rfl | rfl | rfl | rfl | rfl | rfl <;> decide
    · have h3 : (Memory.ofBytes (header 0 0 0x02 0xF0 0)).length ≤ a := by
        rw [Memory.ofBytes_length]
        exact Nat.le_of_not_lt h
      have h4 : (Memory.ofBytes imageD).length ≤ a := by
        rw [Memory.ofBytes_length]
        exact Nat.le_of_not_lt h
      exact ((Memory.read?_eq_none_iff (Memory.ofBytes_wf _) a).2 h3).trans
        ((Memory.read?_eq_none_iff (Memory.ofBytes_wf _) a).2 h4).symm
  · have h1 : b = 0xFF := Option.some.inj (hb.symm.trans (by decide))
    have h2 : b' = 0xF0 := Option.some.inj (hb'.symm.trans (by decide))
    rw [h1, h2]
    decide

theorem witness_AccessorsInIdleRaiseNotDecoded :
    Instr.title ≠ .decode ∧ Instr.title ≠ .reset ∧ State.reset.ready = false := by decide

/-- One witness for each clause of the matrix. -/
theorem witness_EveryStatusIsOneTheStatusMatrixAllows :
    (∃ (t : State) (r : Response),
      exec .decode (idle 0x01000000 []) = .next t ∧ t.responses = [] ++ [r]) ∧
    (∃ (t : State) (r : Response),
      exec .decode (ready imageD 0x01000000) = .next t ∧ t.responses = [] ++ [r]) ∧
    (∃ (t : State) (r : Response),
      exec .reset State.reset = .next t ∧ t.responses = [] ++ [r]) ∧
    (∃ (t : State) (r : Response),
      exec .title State.reset = .next t ∧ t.responses = [] ++ [r]) ∧
    (∃ (t : State) (r : Response),
      exec (.prgslice 0) (ready imageD 0) = .next t ∧ t.responses = [] ++ [r] ∧
      canRaiseRangeError (.prgslice 0) = true) ∧
    ∃ (t : State) (r : Response),
      exec .mapper (ready imageD 0) = .next t ∧ t.responses = [] ++ [r] ∧
      canRaiseRangeError .mapper = false :=
  ⟨⟨_, _, rfl, rfl⟩, ⟨_, _, rfl, rfl⟩, ⟨_, _, rfl, rfl⟩, ⟨_, _, rfl, rfl⟩, ⟨_, _, rfl, rfl, rfl⟩,
    ⟨_, _, rfl, rfl, rfl⟩⟩

/-- T3: a view of two bytes. -/
theorem witness_EveryViewDeliversTheImagesOwnBytes :
    ∃ (t : State) (r : Response),
      StateInv (ready (header 0 0 0 0 0 ++ [0xFF, 0xFF, 0x41, 0x00]) 0) ∧
      exec .title (ready (header 0 0 0 0 0 ++ [0xFF, 0xFF, 0x41, 0x00]) 0) = .next t ∧
      t.responses = [] ++ [r] ∧ r.st = .ok ∧ r.r1 ≠ 0 :=
  ⟨_, _, by decide, rfl, rfl, rfl, by decide⟩

/-- The whole image, the longest range that reads. -/
theorem witness_MemReadAnswersExactlyInsideTheImage :
    (Memory.ofBytes imageD).wf = true ∧ (Memory.ofBytes imageD).memRead 0 16 = some imageD := by
  decide

/-- The three clauses of R100; the first at its shortest operand, the second by its length at its
longest short operand and by the last magic byte. -/
theorem witness_DecodeLatchesAValidImageAndNothingElse :
    ((idle 0x01000000 imageD).ready = false ∧ imageD.length = 16 ∧
      imageD.take 4 = [0x4E, 0x45, 0x53, 0x1A]) ∧
    ((idle 0x01000000 (imageD.take 15)).ready = false ∧ (imageD.take 15).length < 16) ∧
    ((imageD.set 3 0x1B).take 4 ≠ [0x4E, 0x45, 0x53, 0x1A]) ∧
    ((ready imageD 0x01000000).ready = true ∧
      (ready imageD 0x01000000).input = .command ⟨0x01000000, []⟩ :: []) := by decide

theorem witness_DecodeOfAnOverlongOperandIsRefused :
    (idle 0x01000000 (List.replicate (2 ^ 32) 0)).input =
      .command ⟨0x01000000, List.replicate (2 ^ 32) 0⟩ :: [] ∧
    2 ^ 32 ≤ (List.replicate (2 ^ 32) (0 : Byte)).length :=
  ⟨rfl, Nat.le_of_eq (List.length_replicate).symm⟩

theorem witness_DescribeAnswersEightTimesOk :
    ∃ s : State, StateInv s ∧ s.ready = true ∧ s.input = program describe ++ [] :=
  ⟨{ ready imageD 0 with input := program describe ++ [] }, by decide, rfl, rfl⟩

/-- The first and the last record of the only bank. -/
theorem witness_TilesListsEveryRecordInOrder :
    0 < (1 : Byte).toNat ∧ 0 < Config.chrBankSize / 16 ∧
      Config.chrBankSize / 16 - 1 < Config.chrBankSize / 16 := by
  have h : 0 < Config.chrBankSize / 16 := Config.tilesPerBank_pos
  exact ⟨by decide, h, Nat.sub_lt h Nat.one_pos⟩

/-- The largest index as a word and as a number, and a buffer's name. -/
theorem witness_ASourceCallAssemblesAsItsMnemonic :
    (['0', 'x', 'F', 'F', 'F', 'F'] ≠ [] ∧
      (∀ c ∈ ['0', 'x', 'F', 'F', 'F', 'F'], isWordChar c = true) ∧
      asmIndex16 ['0', 'x', 'F', 'F', 'F', 'F'] = some 65535) ∧
    ['i', 'm', 'g'] ≠ [] ∧ ∀ c ∈ ['i', 'm', 'g'], isWordChar c = true := by
  refine ⟨⟨by decide, by simp [isWordChar], by decide⟩, by decide, by simp [isWordChar]⟩

/-! #### Region views: images that hold exactly one bank, of whatever size it is -/

theorem ready_inv {bytes : List Byte} (w : CommandWord) (h1 : bytes.length ≤ Config.lenMax)
    (h2 : 16 ≤ bytes.length) (h3 : bytes.take 4 = Config.magic) : StateInv (ready bytes w) :=
  latch_inv State.reset h1 h2 h3

/-- An image of one program bank, all zero: image A of 95_test_vectors.md (S8). -/
def imageA : List Byte := header 1 0 0 0 0 ++ List.replicate Config.prgBankSize 0

/-- An image of one graphics bank, all zero. -/
def imageOneChr : List Byte := header 0 1 0 0 0 ++ List.replicate Config.chrBankSize 0

theorem imageA_length : imageA.length = 16 + Config.prgBankSize := by simp [imageA, header]; omega

theorem imageOneChr_length : imageOneChr.length = 16 + Config.chrBankSize := by
  simp [imageOneChr, header]; omega

theorem imageA_inv (w : CommandWord) : StateInv (ready imageA w) := by
  have h := prgOff_lt 0 (i := 0) (by omega)
  simp only [prgOff, Config.headerSize] at h
  exact ready_inv w (by rw [imageA_length, Config.lenMax]; omega) (by rw [imageA_length]; omega)
    (by simp [imageA, header, Config.magic])

theorem imageOneChr_inv (w : CommandWord) : StateInv (ready imageOneChr w) := by
  have h : chrOff 0 0 1 + 16 * 65535 + 1 < 2 ^ 32 := chrOff_lt 0 0 (by omega)
  simp only [chrOff, prgOff, Config.headerSize, Nat.mul_one] at h
  exact ready_inv w (by rw [imageOneChr_length, Config.lenMax]; omega)
    (by rw [imageOneChr_length]; omega) (by simp [imageOneChr, header, Config.magic])

/-- The view clause with the bank ending exactly at the end of the buffer, and the error clause
(V80, V104). -/
theorem witness_PrgsliceViewsTheBankOrRaisesRangeError :
    (StateInv (ready imageA 0x22000000) ∧ (ready imageA 0x22000000).ready = true ∧
      (ready imageA 0x22000000).img.read? 4 = some 1 ∧
      (ready imageA 0x22000000).img.read? 6 = some 0 ∧
      16 + Config.prgBankSize = (ready imageA 0x22000000).len) ∧
    (StateInv (ready imageD 0x22000000) ∧ (ready imageD 0x22000000).img.read? 4 = some 0) := by
  refine ⟨⟨imageA_inv _, rfl, ?_, ?_, ?_⟩, by decide, by decide⟩
  · simp [ready, imageA, header]
  · simp [ready, imageA, header]
  · simp [ready, State.len, imageA_length]

/-- The same for a graphics bank, and for the tile records of it: `CHRSLICE 0` of an image that ends
with its bank is answered with the view, which also meets the hypothesis of
`ATileIsItsPieceOfTheBanksView` and `TheTilesOfABankJoinToTheBank`. -/
theorem witness_ChrsliceViewsTheBankOrRaisesRangeError :
    StateInv (ready imageOneChr 0x23000000) ∧ (ready imageOneChr 0x23000000).ready = true ∧
      (ready imageOneChr 0x23000000).img.read? 5 = some 1 ∧
      16 + Config.chrBankSize = (ready imageOneChr 0x23000000).len ∧
      (∃ v0 v1 d, Answers (.chrslice ((0 : BitVec 8).setWidth 16)) (ready imageOneChr 0x23000000)
        ⟨.ok, v0, v1, d⟩) ∧
      (0 : BitVec 16).toNat < Config.chrBankSize / 16 := by
  have h4 : (ready imageOneChr 0x23000000).img.read? 4 = some 0 := by
    simp [ready, imageOneChr, header]
  have h5 : (ready imageOneChr 0x23000000).img.read? 5 = some 1 := by
    simp [ready, imageOneChr, header]
  have h6 : (ready imageOneChr 0x23000000).img.read? 6 = some 0 := by
    simp [ready, imageOneChr, header]
  have hl : (ready imageOneChr 0x23000000).len = 16 + Config.chrBankSize := by
    simp [ready, State.len, imageOneChr_length]
  have hf : chrOff 0 0 ((0 : BitVec 8).setWidth 16 : BitVec 16).toNat + Config.chrBankSize ≤
      (ready imageOneChr 0x23000000).len := Nat.le_of_eq hl.symm
  obtain ⟨d, hd⟩ := Memory.memRead_of_fits (imageOneChr_inv 0x23000000).1 hf
  refine ⟨imageOneChr_inv _, rfl, h5, hl.symm,
    ⟨zext32 (chrOff 0 0 ((0 : BitVec 8).setWidth 16 : BitVec 16).toNat),
      zext32 Config.chrBankSize, d, ?_⟩, Config.tilesPerBank_pos⟩
  unfold Answers
  simp only [exec, execChrslice, whenReady_ready (s := ready imageOneChr 0x23000000) rfl,
    withByte_some h5, withByte_some h6, withByte_some h4]
  rw [if_neg (by decide), checkedView_fits hf, respondView_some hd]
  rfl

/-- `TRNSLICE`: flag clear; flag set with exactly the trainer; one byte short (V105, V111, V114). -/
theorem witness_TrnsliceViewsTheTrainerOrRaisesRangeError :
    StateInv (ready imageD 0) ∧ (0x02 : Byte).toNat / 4 % 2 = 0 ∧
    (ready (header 1 0 4 0 0 ++ List.replicate 512 0x77) 0).len = 528 ∧
    (ready (header 1 0 4 0 0 ++ List.replicate 511 0x77) 0).len = 527 ∧
    (0x04 : Byte).toNat / 4 % 2 = 1 := by
  refine ⟨by decide, by decide, ?_, ?_, by decide⟩ <;>
    simp only [ready, State.len, Memory.ofBytes_length, List.length_append, List.length_replicate,
      header, List.length_cons, List.length_nil]

/-- `TITLE`: no marker and absent (T1); a marker, then a terminated title (T3); no terminator
(T5). -/
theorem witness_TitleViewsUpToTheFirstZeroOrTheEnd :
    (StateInv (ready (header 0 0 0 0 0) 0) ∧ (ready (header 0 0 0 0 0) 0).len ≤ 16 ∧
      (ready (header 0 0 0 0 0) 0).img.read? 16 ≠ some 0xFF) ∧
    (StateInv (ready (header 0 0 0 0 0 ++ [0xFF, 0xFF, 0x41, 0x00]) 0) ∧
      (ready (header 0 0 0 0 0 ++ [0xFF, 0xFF, 0x41, 0x00]) 0).img.read? 16 = some 0xFF ∧
      17 < (ready (header 0 0 0 0 0 ++ [0xFF, 0xFF, 0x41, 0x00]) 0).len) ∧
    (StateInv (ready (header 0 0 0 0 0 ++ [0x41, 0x42, 0x43]) 0) ∧
      16 < (ready (header 0 0 0 0 0 ++ [0x41, 0x42, 0x43]) 0).len) := by decide

end Sys2Proof.Tests
end

/-! PROOFS, family 00_scope.md. Three facts carry it: what a command answers depends on the block
alone (`SameAnswer`), under the invariant every command answers (`Continues`), and what any step
does to the invariant, the pending events and the responses. -/

namespace Sys2Proof.Machine

/-! ### What a command answers depends on the block alone -/

/-- If `R` answers a next state, it is `s` with a response delivered, and `R'` is `u` with the same
response delivered. -/
def SameAnswer (s u : State) (R R' : Result) : Prop :=
  ∀ t, R = .next t → ∃ r, t = s.deliver r ∧ R' = .next (u.deliver r)

/-- `u` has the block of `s`, but for the header bits that no result depends on: bytes 9 to 15 and
bits 3:0 of byte 7 (R31, R33). -/
structure Alike (s u : State) : Prop where
  ready : u.ready = s.ready
  len : u.len = s.len
  read : ∀ a, ¬ (9 ≤ a ∧ a ≤ 15) → a ≠ 7 → u.img.read? a = s.img.read? a
  mapperByte : ∀ b, s.img.read? 7 = some b →
    ∃ b', u.img.read? 7 = some b' ∧ b'.toNat / 16 = b.toNat / 16

theorem Alike.of_same_block {s u : State} (hr : u.ready = s.ready) (hi : u.img = s.img) :
    Alike s u where
  ready := hr
  len := by rw [State.len, hi, State.len]
  read _ _ _ := by rw [hi]
  mapperByte b hb := ⟨b, by rw [hi, hb], rfl⟩

theorem respond_sameAnswer (r0 r1 : Nat) (data : List Byte) (s u : State) :
    SameAnswer s u (respond r0 r1 data s) (respond r0 r1 data u) :=
  fun _ h => ⟨_, (Host.Outcome.next.inj h).symm, rfl⟩

theorem raise_sameAnswer (e : ErrorKind) (s u : State) :
    SameAnswer s u (raise e s) (raise e u) :=
  fun _ h => ⟨_, (Host.Outcome.next.inj h).symm, rfl⟩

theorem fault_sameAnswer (f : Fault) (s u : State) (R' : Result) :
    SameAnswer s u (.fault f) R' := by
  rintro t ⟨⟩

theorem ite_sameAnswer {s u : State} {p : Prop} [Decidable p] {R₁ R₂ R₁' R₂' : Result}
    (h₁ : SameAnswer s u R₁ R₁') (h₂ : SameAnswer s u R₂ R₂') :
    SameAnswer s u (if p then R₁ else R₂) (if p then R₁' else R₂') := by
  split
  · exact h₁
  · exact h₂

theorem withByte_sameAnswer {s u : State} {a : Nat} {body body' : Byte → Result}
    (ha : u.img.read? a = s.img.read? a) (h : ∀ b, SameAnswer s u (body b) (body' b)) :
    SameAnswer s u (withByte s a body) (withByte u a body') := by
  cases hs : s.img.read? a with
  | none =>
    simp only [withByte, hs]
    exact fault_sameAnswer _ s u _
  | some b =>
    rw [withByte_some hs, withByte_some (ha.trans hs)]
    exact h b

theorem respondView_sameAnswer {s u : State} {off size : Nat}
    (hm : u.img.memRead off size = s.img.memRead off size) :
    SameAnswer s u (respondView off size s) (respondView off size u) := by
  cases hs : s.img.memRead off size with
  | none =>
    simp only [respondView, hs]
    exact fault_sameAnswer _ s u _
  | some d =>
    rw [respondView_some hs, respondView_some (hm.trans hs)]
    exact respond_sameAnswer off size d s u

/-- The mapper number takes only the upper nibble of byte 7 (R31, R115). -/
theorem mapperNumber_congr (f6 : Byte) {f7 f7' : Byte} (h : f7'.toNat / 16 = f7.toNat / 16) :
    mapperNumber f6 f7' = mapperNumber f6 f7 := by
  have hmask : ∀ b : Byte, b &&& 0xF0 = BitVec.ofNat 8 (b.toNat / 16 * 16) := by decide
  rw [mapperNumber, mapperNumber, hmask f7', hmask f7, h]

/-! Every address that is computed lies behind the header, where the images agree. -/

theorem le_prgOff (f6 : Byte) (i : Nat) : 16 ≤ prgOff f6 i := by
  rw [prgOff_eq]
  omega

theorem le_chrOff (f6 prgn : Byte) (i : Nat) : 16 ≤ chrOff f6 prgn i :=
  (le_prgOff f6 prgn.toNat).trans (Nat.le_add_right _ _)

theorem le_tileOff (f6 prgn : Byte) (b k : Nat) : 16 ≤ tileOff f6 prgn b k :=
  (le_chrOff f6 prgn b).trans (Nat.le_add_right _ _)

theorem le_titleStart (m : Memory) (t0 : Nat) : t0 ≤ titleStart m t0 := by
  unfold titleStart
  split <;> omega

theorem titleEnd_congr {m m' : Memory} {p : Nat} (fuel : Nat)
    (h : ∀ a, p ≤ a → m'.read? a = m.read? a) : titleEnd m' p fuel = titleEnd m p fuel := by
  induction fuel generalizing p with
  | zero => rfl
  | succ fuel ih =>
    rw [titleEnd, titleEnd, h p le_rfl, ih fun a ha => h a (by omega)]

section
variable {s u : State} (h : Alike s u)
include h

theorem Alike.read_behind {a : Nat} (ha : 16 ≤ a) : u.img.read? a = s.img.read? a :=
  h.read a (by omega) (by omega)

theorem Alike.memRead_behind {off : Nat} (ho : 16 ≤ off) (size : Nat) :
    u.img.memRead off size = s.img.memRead off size :=
  Memory.memRead_congr fun j _ => h.read_behind (by omega)

theorem Alike.titleStart_behind {t0 : Nat} (ht : 16 ≤ t0) :
    titleStart u.img t0 = titleStart s.img t0 := by
  have hl : u.img.length = s.img.length := h.len
  rw [titleStart, titleStart, hl, h.read_behind ht]

theorem Alike.whenReady {R R' : Result} (hR : SameAnswer s u R R') :
    SameAnswer s u (whenReady s R) (whenReady u R') := by
  rw [Machine.whenReady, Machine.whenReady, h.ready]
  exact ite_sameAnswer hR (raise_sameAnswer .notDecoded s u)

/-- A read of a header byte in which the images agree. -/
theorem Alike.headerByte {a : Nat} {body body' : Byte → Result}
    (ha : a ≠ 7 ∧ ¬ (9 ≤ a ∧ a ≤ 15)) (hb : ∀ b, SameAnswer s u (body b) (body' b)) :
    SameAnswer s u (withByte s a body) (withByte u a body') :=
  withByte_sameAnswer (h.read a ha.2 ha.1) hb

theorem Alike.mapperAnswer (f6 : Byte) :
    SameAnswer s u (withByte s 7 fun f7 => respond (mapperNumber f6 f7).toNat 0 [] s)
      (withByte u 7 fun f7 => respond (mapperNumber f6 f7).toNat 0 [] u) := by
  cases hs : s.img.read? 7 with
  | none =>
    simp only [withByte, hs]
    exact fault_sameAnswer _ s u _
  | some f7 =>
    obtain ⟨f7', hu, hn⟩ := h.mapperByte f7 hs
    rw [withByte_some hs, withByte_some hu, mapperNumber_congr f6 hn]
    exact respond_sameAnswer _ 0 [] s u

theorem Alike.view {off : Nat} (ho : 16 ≤ off) (size : Nat) :
    SameAnswer s u (respondView off size s) (respondView off size u) :=
  respondView_sameAnswer (h.memRead_behind ho size)

theorem Alike.checkedView {off : Nat} (ho : 16 ≤ off) (size : Nat) :
    SameAnswer s u (checkedView off size s) (checkedView off size u) := by
  rw [Machine.checkedView, Machine.checkedView, h.len]
  exact ite_sameAnswer (h.view ho size) (raise_sameAnswer .rangeError s u)

/-- `TITLE`: the start and the scan both read behind the header (R143). -/
theorem Alike.execTitle : SameAnswer s u (execTitle s) (execTitle u) := by
  refine h.whenReady (h.headerByte (by decide) fun f6 => h.headerByte (by decide) fun prgn =>
    h.headerByte (by decide) fun chrn => ?_)
  have ht : 16 ≤ titleNominal f6 prgn chrn := le_chrOff f6 prgn chrn.toNat
  have hs := ht.trans (le_titleStart s.img _)
  dsimp only
  rw [h.len, h.titleStart_behind ht, titleEnd_congr _ fun a ha => h.read_behind (hs.trans ha)]
  refine ite_sameAnswer (respond_sameAnswer _ 0 [] s u) ?_
  split
  · exact h.view hs _
  · exact fault_sameAnswer _ s u _

/-- An accessor gives the same response on alike blocks (R14, R31, R33). -/
theorem Alike.exec_accessor {i : Instr} (hi : i.isAccessor = true) :
    SameAnswer s u (exec i s) (exec i u) := by
  have hd := fun n => respond_sameAnswer n 0 [] s u
  have he := raise_sameAnswer .rangeError s u
  cases i with
  | decode => cases hi
  | reset => cases hi
  | prgcnt => exact h.whenReady (h.headerByte (by decide) fun _ => hd _)
  | chrcnt => exact h.whenReady (h.headerByte (by decide) fun _ => hd _)
  | mirror => exact h.whenReady (h.headerByte (by decide) fun _ => hd _)
  | battery => exact h.whenReady (h.headerByte (by decide) fun _ => hd _)
  | trainer => exact h.whenReady (h.headerByte (by decide) fun _ => hd _)
  | mapper => exact h.whenReady (h.headerByte (by decide) h.mapperAnswer)
  | ramcnt => exact h.whenReady (h.headerByte (by decide) fun _ => hd _)
  | prgoff n => exact h.whenReady (h.headerByte (by decide) fun _ => hd _)
  | chroff n =>
    exact h.whenReady (h.headerByte (by decide) fun _ => h.headerByte (by decide) fun _ => hd _)
  | prgslice n =>
    exact h.whenReady (h.headerByte (by decide) fun _ => ite_sameAnswer he
      (h.headerByte (by decide) fun _ => h.checkedView (le_prgOff _ _) _))
  | chrslice n =>
    exact h.whenReady (h.headerByte (by decide) fun _ => ite_sameAnswer he
      (h.headerByte (by decide) fun _ => h.headerByte (by decide) fun _ =>
        h.checkedView (le_chrOff _ _ _) _))
  | trnslice =>
    exact h.whenReady (h.headerByte (by decide) fun _ => h.checkedView (Nat.le_refl 16) _)
  | title => exact h.execTitle
  | tile b k =>
    refine h.whenReady (h.headerByte (by decide) fun _ => ite_sameAnswer he (ite_sameAnswer he
      (h.headerByte (by decide) fun _ => h.headerByte (by decide) fun _ => ?_)))
    rw [h.len]
    exact ite_sameAnswer (h.view (le_tileOff _ _ _ _) _) he

end

/-! ### `DECODE`, one equation per ending (R100) -/

theorem execDecode_overlong {s : State} (hb : Config.lenMax < (bulkOperand s).length) :
    execDecode s = .refused .operandTooLong := by
  obtain ⟨-, he⟩ | ⟨hle, -⟩ | ⟨hle, -⟩ | ⟨hle, -⟩ := execDecode_cases s
  · exact he
  all_goals exact absurd hb (Nat.not_lt.2 hle)

section
variable {s : State} (hb : (bulkOperand s).length ≤ Config.lenMax)
include hb

theorem execDecode_ready (hr : s.ready = true) : execDecode s = raise .alreadyDecoded s := by
  obtain ⟨hlong, -⟩ | ⟨-, -, he⟩ | ⟨-, hidle, -⟩ | ⟨-, hidle, -⟩ := execDecode_cases s
  · exact absurd hlong (Nat.not_lt.2 hb)
  · exact he
  all_goals simp [hr] at hidle

theorem execDecode_mismatch (hr : s.ready = false)
    (hm : (bulkOperand s).length < 16 ∨ (bulkOperand s).take 4 ≠ Config.magic) :
    execDecode s = raise .headerMismatch s := by
  obtain ⟨hlong, -⟩ | ⟨-, hready, -⟩ | ⟨-, -, -, he⟩ | ⟨-, -, hlen, hmagic, -⟩ :=
    execDecode_cases s
  · exact absurd hlong (Nat.not_lt.2 hb)
  · simp [hr] at hready
  · exact he
  · exact absurd hm (not_or.2 ⟨Nat.not_lt.2 hlen, not_not.2 hmagic⟩)

theorem execDecode_latch (hr : s.ready = false) (hlen : 16 ≤ (bulkOperand s).length)
    (hmagic : (bulkOperand s).take 4 = Config.magic) :
    execDecode s = respond 0 0 [] (s.latch (bulkOperand s)) := by
  obtain ⟨hlong, -⟩ | ⟨-, hready, -⟩ | ⟨-, -, hm, -⟩ | ⟨-, -, -, -, he⟩ := execDecode_cases s
  · exact absurd hlong (Nat.not_lt.2 hb)
  · simp [hr] at hready
  · exact absurd hm (not_or.2 ⟨Nat.not_lt.2 hlen, not_not.2 hmagic⟩)
  · exact he

end

/-! ### What a command and a step read -/

theorem State.deliver_of_same_block {s u : State} (hr : u.ready = s.ready) (hi : u.img = s.img)
    (r : Response) : u.deliver r = ⟨s.ready, s.img, u.input.tail, u.responses ++ [r]⟩ := by
  rw [State.deliver, hr, hi]

/-- With the same block and the same operand, a command leaves the same block and adds the same
response, whatever else is pending and whatever was answered before (R13, R20). -/
theorem exec_reads_own_event {i : Instr} {s u t : State} (h : exec i s = .next t)
    (hr : u.ready = s.ready) (hi : u.img = s.img) (hb : bulkOperand u = bulkOperand s) :
    ∃ r, t.input = s.input.tail ∧ t.responses = s.responses ++ [r] ∧
      exec i u = .next ⟨t.ready, t.img, u.input.tail, u.responses ++ [r]⟩ := by
  by_cases ha : i.isAccessor = true
  · obtain ⟨r, rfl, hu⟩ := (Alike.of_same_block hr hi).exec_accessor ha t h
    exact ⟨r, rfl, rfl, hu.trans (congrArg _ (State.deliver_of_same_block hr hi r))⟩
  · cases i with
    | decode =>
      simp only [exec] at h ⊢
      have hends := execDecode_cases s
      rw [← hb] at hends
      obtain ⟨-, he⟩ | ⟨hle, hs, he⟩ | ⟨hle, hs, hm, he⟩ | ⟨hle, hs, hlen, hmagic, he⟩ :=
        hends <;> rw [he] at h <;> cases h
      · rw [execDecode_ready hle (hr.trans hs)]
        exact ⟨_, rfl, rfl, congrArg _ (State.deliver_of_same_block hr hi _)⟩
      · rw [execDecode_mismatch hle (hr.trans hs) hm]
        exact ⟨_, rfl, rfl, congrArg _ (State.deliver_of_same_block hr hi _)⟩
      · rw [execDecode_latch hle (hr.trans hs) hlen hmagic]
        exact ⟨_, rfl, rfl, rfl⟩
    | reset =>
      cases h
      exact ⟨_, rfl, rfl, rfl⟩
    | _ => exact absurd rfl ha

/-! ### Under the invariant every command answers -/

/-- The result is a next state: no fault, no refusal. -/
def Continues (R : Result) : Prop := ∃ t, R = .next t

theorem respond_continues (r0 r1 : Nat) (data : List Byte) (s : State) :
    Continues (respond r0 r1 data s) := ⟨_, rfl⟩

theorem raise_continues (e : ErrorKind) (s : State) : Continues (raise e s) := ⟨_, rfl⟩

theorem ite_continues {p : Prop} [Decidable p] {R R' : Result} (h : p → Continues R)
    (h' : ¬ p → Continues R') : Continues (if p then R else R') := by
  split
  · exact h ‹_›
  · exact h' ‹_›

theorem whenReady_continues {s : State} {R : Result} (h : s.ready = true → Continues R) :
    Continues (whenReady s R) :=
  ite_continues h fun _ => raise_continues _ s

section
variable {s : State} (hinv : StateInv s)
include hinv

theorem StateInv.headerByte (hr : s.ready = true) {a : Nat} (ha : a < 16) {body : Byte → Result}
    (hb : ∀ b, Continues (body b)) : Continues (withByte s a body) := by
  obtain ⟨b, hread⟩ := hinv.header hr ha
  rw [withByte_some hread]
  exact hb b

theorem StateInv.view {off size : Nat} (hf : off + size ≤ s.len) :
    Continues (respondView off size s) := by
  obtain ⟨d, hd⟩ := Memory.memRead_of_fits hinv.1 hf
  rw [respondView_some hd]
  exact respond_continues off size d s

theorem StateInv.checkedView (off size : Nat) : Continues (checkedView off size s) :=
  ite_continues (fun hf => hinv.view (of_decide_eq_true hf)) fun _ => raise_continues _ s

/-- `TITLE`: the scan stops inside the buffer, so the view up to there fits (R143). -/
theorem StateInv.execTitle_continues : Continues (execTitle s) := by
  refine whenReady_continues fun hr => hinv.headerByte hr (by decide) fun f6 =>
    hinv.headerByte hr (by decide) fun prgn => hinv.headerByte hr (by decide) fun chrn => ?_
  refine ite_continues (fun _ => respond_continues _ 0 [] s) fun hlt => ?_
  obtain ⟨p, hp, hle, hend, -⟩ := titleEnd_spec hinv.1 (Nat.add_sub_of_le (Nat.le_of_not_le hlt))
  simp only [State.len] at hp ⊢
  rw [hp]
  exact hinv.view (by rw [Nat.add_sub_of_le hle]; exact hend)

/-- `TILE`: a record of a bank that fits, fits (R144). -/
theorem StateInv.execTile_continues (b : BitVec 8) (k : BitVec 16) :
    Continues (execTile b k s) := by
  have he := fun p : Prop => fun _ : p => raise_continues .rangeError s
  refine whenReady_continues fun hr => hinv.headerByte hr (by decide) fun chrn =>
    ite_continues (he _) fun _ => ite_continues (he _) fun hk =>
    hinv.headerByte hr (by decide) fun f6 => hinv.headerByte hr (by decide) fun prgn =>
    ite_continues (fun hf => hinv.view ?_) (he _)
  exact (tileOff_end_le f6 prgn b.toNat (Nat.lt_of_not_le hk)).trans (of_decide_eq_true hf)

/-- Under the invariant every command with a presentable operand answers (R186). -/
theorem StateInv.exec_continues {i : Instr} (hb : (bulkOperand s).length ≤ Config.lenMax) :
    Continues (exec i s) := by
  have hd := fun n => respond_continues n 0 [] s
  have he := fun p : Prop => fun _ : p => raise_continues .rangeError s
  have hone : ∀ {a : Nat} (_ : a < 16) (f : Byte → Nat),
      Continues (whenReady s (withByte s a fun b => respond (f b) 0 [] s)) := fun ha f =>
    whenReady_continues fun hr => hinv.headerByte hr ha fun _ => hd _
  cases i with
  | decode =>
    obtain ⟨hlong, -⟩ | ⟨-, -, hx⟩ | ⟨-, -, -, hx⟩ | ⟨-, -, -, -, hx⟩ := execDecode_cases s
    · exact absurd hlong (Nat.not_lt.2 hb)
    all_goals exact ⟨_, hx⟩
  | reset => exact respond_continues 0 0 [] s.clear
  | prgcnt => exact hone (by decide) _
  | chrcnt => exact hone (by decide) _
  | mirror => exact hone (by decide) _
  | battery => exact hone (by decide) _
  | trainer => exact hone (by decide) _
  | mapper =>
    exact whenReady_continues fun hr => hinv.headerByte hr (by decide) fun _ =>
      hinv.headerByte hr (by decide) fun _ => hd _
  | ramcnt => exact hone (by decide) _
  | prgoff n => exact hone (by decide) _
  | chroff n =>
    exact whenReady_continues fun hr => hinv.headerByte hr (by decide) fun _ =>
      hinv.headerByte hr (by decide) fun _ => hd _
  | prgslice n =>
    exact whenReady_continues fun hr => hinv.headerByte hr (by decide) fun _ =>
      ite_continues (he _) fun _ => hinv.headerByte hr (by decide) fun _ => hinv.checkedView _ _
  | chrslice n =>
    exact whenReady_continues fun hr => hinv.headerByte hr (by decide) fun _ =>
      ite_continues (he _) fun _ => hinv.headerByte hr (by decide) fun _ =>
        hinv.headerByte hr (by decide) fun _ => hinv.checkedView _ _
  | trnslice =>
    exact whenReady_continues fun hr => hinv.headerByte hr (by decide) fun _ =>
      hinv.checkedView _ _
  | title => exact hinv.execTitle_continues
  | tile b k => exact hinv.execTile_continues b k

/-- Under the invariant, with everything pending presentable, a step answers (R186, R190). -/
theorem StateInv.step_continues (hp : InputPresentable s) : Continues (step s) := by
  cases hin : s.input with
  | nil => exact ⟨_, step_idle hin⟩
  | cons e rest =>
    cases e with
    | resetEvent => exact ⟨_, step_resetEvent hin⟩
    | command c =>
      by_cases hd : ∃ i, decode c.word = .instr i
      · obtain ⟨i, hd⟩ := hd
        have hbulk : bulkWellFormed c.bulk = true :=
          List.all_eq_true.1 hp (.command c) (by simp [hin])
        rw [step_command hin hd]
        exact hinv.exec_continues (by rw [bulkOperand_head hin]; exact of_decide_eq_true hbulk)
      · rw [step_illegal hin (not_exists.1 hd)]
        exact raise_continues _ s

end

/-! ### What every step does to the invariant, the pending events and the responses -/

/-- A step keeps the invariant (R25). -/
theorem StateInv.step {s t : State} (hinv : StateInv s) (h : step s = .next t) : StateInv t := by
  obtain ⟨-, rfl⟩ | ⟨-, -, rfl⟩ | ⟨-, -, -, ⟨r, -, rfl⟩, -⟩ |
    ⟨c, -, -, -, -, hle, hlen, hmagic, rfl⟩ | ⟨-, -, -, -, rfl⟩ := step_cases h
  · exact hinv
  · exact clear_inv s
  · exact hinv.deliver r
  · exact (latch_inv s hle hlen hmagic).deliver _
  · exact (clear_inv s).deliver _

/-- A step takes its own event off the host's list and no other. -/
theorem step_input {s t : State} (h : step s = .next t) : t.input = s.input.tail := by
  obtain ⟨hin, rfl⟩ | ⟨-, -, rfl⟩ | ⟨-, -, -, ⟨r, -, rfl⟩, -⟩ | ⟨-, -, -, -, -, -, -, -, rfl⟩ |
    ⟨-, -, -, -, rfl⟩ := step_cases h
  · rw [hin, List.tail_nil]
  all_goals rfl

/-- A step on a command adds one response; if it is an error, it has no payload and the block is
what it was (R12, R168). -/
theorem step_command_answer {s t : State} {c : Command} {rest : List HostEvent}
    (hin : s.input = .command c :: rest) (h : step s = .next t) :
    ∃ r, t.responses = s.responses ++ [r] ∧
      ∀ e, r.st = .error e → r = errorResponse e ∧ t = s.deliver r := by
  obtain ⟨hnil, -⟩ | ⟨rest', hreset, -⟩ | ⟨-, -, -, ⟨r, hshape, rfl⟩, -⟩ |
    ⟨-, -, -, -, -, -, -, -, rfl⟩ | ⟨-, -, -, -, rfl⟩ := step_cases h
  · simp [hin] at hnil
  · simp [hin] at hreset
  · exact ⟨r, rfl, fun e he => ⟨hshape.error he, rfl⟩⟩
  all_goals exact ⟨_, rfl, fun e he => by cases he⟩

/-- A step on an event adds a response for a command and none for a reset event (R12, R180). -/
theorem step_responses {s t : State} {e : HostEvent} {rest : List HostEvent}
    (hin : s.input = e :: rest) (h : step s = .next t) :
    ∃ rs, t.responses = s.responses ++ rs ∧
      commandCount (e :: rest) = rs.length + commandCount rest := by
  cases e with
  | resetEvent =>
    rw [step_resetEvent hin] at h
    cases h
    exact ⟨[], (List.append_nil _).symm, (Nat.zero_add _).symm⟩
  | command c =>
    obtain ⟨r, hr, -⟩ := step_command_answer hin h
    exact ⟨[r], hr, Nat.add_comm _ 1⟩

theorem core_run_succ {s t : State} (h : step s = .next t) (k : Nat) :
    core.run (k + 1) s = core.run k t := by
  simp only [Host.Core.run, show core.step s = .next t from h]

/-! ### The statements -/

/-- Settles O6: the command branch of the step. -/
theorem aStepExecutesTheDecodedCommand : Obligations.AStepExecutesTheDecodedCommand :=
  fun _ _ _ _ hin hd => step_command hin hd

/-- Settles O30: the first ending of `DECODE`, at the operand beside the command. -/
theorem decodeOfAnOverlongOperandIsRefused : Obligations.DecodeOfAnOverlongOperandIsRefused := by
  intro s c rest hin hlong
  exact execDecode_overlong (by rw [bulkOperand_head hin, Config.lenMax]; omega)

/-- Settles O26: a range that fits reads, and a range that reads and is not empty fits. -/
theorem memReadAnswersExactlyInsideTheImage :
    Obligations.MemReadAnswersExactlyInsideTheImage := by
  intro m addr n hwf
  refine ⟨⟨?_, ?_⟩, fun d hd => Memory.memRead_spec hd⟩
  · rintro ⟨d, hd⟩
    exact or_iff_not_imp_left.2 (Memory.fits_of_memRead hwf hd)
  · rintro (rfl | hf)
    · exact ⟨[], Memory.memRead_zero m addr⟩
    · exact Memory.memRead_of_fits hwf hf

/-- R8 bounds 65535 graphics banks, so one bank is short, and the slack left for tile records holds
one bank more. -/
theorem chrOff_end_lt (f6 prgn : Byte) {i : Nat} (h : i < 2 ^ 16) :
    chrOff f6 prgn i + Config.chrBankSize < 2 ^ 32 := by
  have hsizes := Config.sizes_exact.2
  have hoff := chrOff_lt f6 prgn h
  generalize Config.prgBankSize = p at hsizes
  generalize Config.chrBankSize = c at hsizes ⊢
  omega

/-- A record takes no more room than a bank, so the bound for bank `b + 1` covers bank `b`'s
records. -/
theorem tileOff_end_lt (f6 prgn b : Byte) (k : BitVec 16) :
    tileOff f6 prgn b.toNat k.toNat + 16 < 2 ^ 32 := by
  have hnext : chrOff f6 prgn (b.toNat + 1) = chrOff f6 prgn b.toNat + Config.chrBankSize := by
    simp only [chrOff, Nat.mul_succ, Nat.add_assoc]
  have hoff := chrOff_lt f6 prgn (i := b.toNat + 1) (by omega)
  have htile : 16 ≤ Config.chrBankSize := by
    have := Config.tilesPerBank_mul
    have := Config.tilesPerBank_pos
    omega
  rw [tileOff, Config.tileSize]
  omega

/-- Settles O27: the title is the graphics offset of bank `CHRN`, which fits in 8 bits. -/
theorem everyComputedOffsetIsBelowTwoToThe32 :
    Obligations.EveryComputedOffsetIsBelowTwoToThe32 := by
  refine ⟨Config.bankSizes_legal, fun f6 prgn chrn b i k => ⟨prgOff_lt f6 i.isLt,
    chrOff_end_lt f6 prgn i.isLt, ?_, tileOff_end_lt f6 prgn b k⟩⟩
  have hoff := chrOff_lt f6 prgn (i := chrn.toNat) (by omega)
  rw [titleNominal]
  omega

/-- Settles O16, by induction on the pending events: each step takes one off and answers it. -/
theorem aRunAnswersEveryCommandExactlyOnce : Obligations.ARunAnswersEveryCommandExactlyOnce := by
  intro s hinv hp
  induction hin : s.input generalizing s with
  | nil => exact ⟨s, [], rfl, hinv, hin, (List.append_nil _).symm, rfl⟩
  | cons e rest ih =>
    obtain ⟨t, ht⟩ := hinv.step_continues hp
    obtain ⟨rs, hrs, hcount⟩ := step_responses hin ht
    have hti : t.input = rest := by rw [step_input ht, hin, List.tail_cons]
    have htp : InputPresentable t := by
      rw [InputPresentable, hin, List.all_cons, Bool.and_eq_true] at hp
      rw [InputPresentable, hti]
      exact hp.2
    obtain ⟨u, rs', hrun, huinv, huin, hurs, hlen⟩ := ih t (hinv.step ht) htp hti
    refine ⟨u, rs ++ rs', ?_, huinv, huin, ?_, ?_⟩
    · rw [List.length_cons, core_run_succ ht, hrun]
    · rw [hurs, hrs, List.append_assoc]
    · rw [List.length_append, hlen, hcount]

/-- Settles O17, by the event: a reset event adds no response, a command adds one. -/
theorem aStepReadsOnlyItsOwnEvent : Obligations.AStepReadsOnlyItsOwnEvent := by
  intro ready img e rest rest' rs rs' t h
  cases e with
  | resetEvent =>
    rw [step_resetEvent rfl] at h ⊢
    cases h
    exact ⟨[], rfl, (List.append_nil _).symm, congrArg _ (by simp [State.clear, State.retire])⟩
  | command c =>
    by_cases hd : ∃ i, decode c.word = .instr i
    · obtain ⟨i, hd⟩ := hd
      rw [step_command rfl hd] at h ⊢
      obtain ⟨r, hin, hrs, hu⟩ := exec_reads_own_event h
        (u := ⟨ready, img, .command c :: rest', rs'⟩) rfl rfl rfl
      exact ⟨[r], hin, hrs, hu⟩
    · rw [step_illegal rfl (not_exists.1 hd)] at h ⊢
      cases h
      exact ⟨[_], rfl, rfl, rfl⟩

/-- Settles O18: an error is never the answer of a step that wrote the block. -/
theorem everyCommandAnswersOnceAndErrorsChangeNothing :
    Obligations.EveryCommandAnswersOnceAndErrorsChangeNothing := by
  intro s t c rest hin h
  obtain ⟨r, hrs, herr⟩ := step_command_answer hin h
  refine ⟨r, by rw [step_input h, hin, List.tail_cons], hrs, fun e he => ?_⟩
  obtain ⟨rfl, rfl⟩ := herr e he
  exact ⟨rfl, rfl, rfl, rfl, rfl, rfl⟩

/-- In state Ready a command other than `RESET` gives the same response on the same image (R14). -/
theorem exec_ready_sameAnswer {i : Instr} {s u : State} (hne : i ≠ .reset) (hs : s.ready = true)
    (hu : u.ready = true) (hi : u.img = s.img) (hb : (bulkOperand u).length ≤ Config.lenMax) :
    SameAnswer s u (exec i s) (exec i u) := by
  by_cases ha : i.isAccessor = true
  · exact (Alike.of_same_block (hu.trans hs.symm) hi).exec_accessor ha
  · cases i with
    | decode =>
      simp only [exec]
      rw [execDecode_ready hb hu]
      obtain ⟨-, he⟩ | ⟨-, -, he⟩ | ⟨-, hidle, -⟩ | ⟨-, hidle, -⟩ := execDecode_cases s
      · rw [he]
        rintro t ⟨⟩
      · rw [he]
        exact raise_sameAnswer _ s u
      all_goals simp [hs] at hidle
    | reset => exact absurd rfl hne
    | _ => exact absurd rfl ha

/-- Settles O20: in state Ready the answer is delivered and nothing else is written. -/
theorem inReadyEveryCommandButResetIsPure : Obligations.InReadyEveryCommandButResetIsPure := by
  intro i s u t hne hs hu hi hb h
  obtain ⟨r, rfl, hv⟩ := exec_ready_sameAnswer hne hs hu hi hb t h
  exact ⟨hs, rfl, r, u.deliver r, rfl, hv, hu, rfl, rfl⟩

end Sys2Proof.Machine

/-! PROOFS, family 10_state.md. `step_cases` lists the writers of the block; what R25 (c) says of a
step follows from that list, and the rest of R25 is the invariant read out in the bytes of the
image. For the unused header bits, two Ready states with such images are `Alike`. -/

namespace Sys2Proof.Machine

/-! ### The writers of the block -/

/-- Settles O14, by what the step can do: only a latch and a clear touch the block. -/
theorem onlyDecodeAndResetWriteTheBlock : Obligations.OnlyDecodeAndResetWriteTheBlock := by
  intro s t h
  obtain ⟨-, rfl⟩ | ⟨rest, hin, rfl⟩ | ⟨-, -, -, ⟨r, -, rfl⟩, -⟩ |
    ⟨c, rest, hin, hd, hidle, -, -, -, rfl⟩ | ⟨c, rest, hin, hd, rfl⟩ := step_cases h
  · exact .inl ⟨rfl, rfl⟩
  · exact .inr (.inr ⟨_, rest, hin, .inl rfl, rfl, rfl⟩)
  · exact .inl ⟨rfl, rfl⟩
  · exact .inr (.inl ⟨c, rest, hin, hd, hidle, rfl, by simp, by simp⟩)
  · exact .inr (.inr ⟨_, rest, hin, .inr ⟨c, rfl, hd⟩, rfl, rfl⟩)

/-- R25 (c): a latch starts in Idle and a clear ends there, so a step within Ready keeps `IMG`. -/
theorem step_img_of_stays_ready {s t : State} (h : step s = .next t) (hs : s.ready = true)
    (ht : t.ready = true) : t.img = s.img := by
  obtain ⟨-, himg⟩ | ⟨-, -, -, -, hidle, -⟩ | ⟨-, -, -, -, hidle, -⟩ :=
    onlyDecodeAndResetWriteTheBlock s t h
  · exact himg
  · simp [hs] at hidle
  · simp [ht] at hidle

/-! ### The invariant -/

/-- R25 (b) in the bytes of the image: the header is there and begins with the magic. -/
theorem StateInv.magic_bytes {s : State} (hinv : StateInv s) (hr : s.ready = true) :
    16 ≤ s.len ∧ ∀ j < 4, s.img.read? j = Config.magic[j]? := by
  obtain ⟨-, -, -, hready⟩ := hinv
  obtain ⟨hlen, hmagic⟩ := hready hr
  obtain ⟨-, hbytes⟩ := Memory.memRead_spec hmagic
  exact ⟨hlen, fun j hj => by rw [hbytes j hj, Nat.zero_add]⟩

/-- Settles O13: the step keeps the invariant, and R25 (a) and (b) are read off from it. -/
theorem everyStepKeepsTheStateInvariant : Obligations.EveryStepKeepsTheStateInvariant := by
  intro s t hinv h
  have hinv' := hinv.step h
  have ⟨_, _, hidle, _⟩ := hinv'
  refine ⟨hinv', fun ht => ⟨hidle ht, ?_⟩, hinv'.magic_bytes, fun hs ht => ?_⟩
  · rw [State.len, hidle ht, List.length_nil]
  · have himg := step_img_of_stays_ready h hs ht
    exact ⟨himg, congrArg List.length himg⟩

/-- Settles O12: the reset state is a cleared state. -/
theorem theStateInvariantHoldsAtReset : Obligations.TheStateInvariantHoldsAtReset :=
  clear_inv State.reset

/-- Settles O11: the reset event and `RESET` both clear the block. -/
theorem resetLeavesIdleWithNoImage : Obligations.ResetLeavesIdleWithNoImage := by
  refine ⟨⟨rfl, rfl, rfl⟩, fun s rest hin => ?_, fun s c rest hin hw => ?_⟩
  · exact ⟨_, step_resetEvent hin, rfl, rfl, rfl⟩
  · have hd : decode c.word = .instr .reset := by
      rw [hw]
      decide
    exact ⟨s.clear.deliver (okResponse 0 0 []), step_command hin hd, rfl, rfl, rfl⟩

/-! ### The unused header bits -/

theorem SameAnswer.responses {s u t : State} {R R' : Result} (hR : SameAnswer s u R R')
    (h : R = .next t) : ∃ r v, t.responses = s.responses ++ [r] ∧ R' = .next v ∧
      v.responses = u.responses ++ [r] := by
  obtain ⟨r, rfl, hv⟩ := hR t h
  exact ⟨r, u.deliver r, rfl, hv, rfl⟩

/-- Two Ready states are alike when their images differ only in the unused header bits: in Ready
byte 7 exists (R25, R31, R33). -/
theorem StateInv.alike_of_ready {s u : State} (hu : StateInv u) (hsr : s.ready = true)
    (hur : u.ready = true) (hlen : u.len = s.len)
    (hread : ∀ a, ¬ (9 ≤ a ∧ a ≤ 15) → a ≠ 7 → u.img.read? a = s.img.read? a)
    (hnibble : ∀ b b', s.img.read? 7 = some b → u.img.read? 7 = some b' →
      b'.toNat / 16 = b.toNat / 16) : Alike s u where
  ready := hur.trans hsr.symm
  len := hlen
  read := hread
  mapperByte b hb := by
    obtain ⟨b', hb'⟩ := hu.header hur (a := 7) (by decide)
    exact ⟨b', hb', hnibble b b' hb hb'⟩

/-- In state Ready `DECODE` looks at no byte of the image (R164). -/
theorem execDecode_ready_sameAnswer {s u : State} (hs : s.ready = true) (hu : u.ready = true)
    (hb : (bulkOperand u).length ≤ Config.lenMax) :
    SameAnswer s u (execDecode s) (execDecode u) := by
  rw [execDecode_ready hb hu]
  by_cases hlong : Config.lenMax < (bulkOperand s).length
  · rw [execDecode_overlong hlong]
    rintro t ⟨⟩
  · rw [execDecode_ready (Nat.le_of_not_lt hlong) hs]
    exact raise_sameAnswer .alreadyDecoded s u

/-- Settles O21: the accessors answer alike on alike blocks, and `DECODE` and `RESET` read no image
in state Ready. -/
theorem noResultDependsOnTheUnusedHeaderBits :
    Obligations.NoResultDependsOnTheUnusedHeaderBits := by
  intro i s u t _ hinv hs hu hlen hread hnibble hb h
  by_cases ha : i.isAccessor = true
  · exact ((hinv.alike_of_ready hs hu hlen hread hnibble).exec_accessor ha).responses h
  · cases i with
    | decode => exact (execDecode_ready_sameAnswer hs hu hb).responses h
    | reset =>
      cases h
      exact ⟨okResponse 0 0 [], _, rfl, rfl, rfl⟩
    | _ => exact absurd rfl ha

end Sys2Proof.Machine

/-! PROOFS, family 20_memory.md. A number is the empty view at itself, so every accessor ends in an
error, a stop, or a view of the image (`EndsInView`); what a view delivers then follows from what a
range read answers. The region map has one lemma per border between two regions. -/

namespace Sys2Proof.Machine

/-! ### The region map: one lemma per border -/

/-- R55, R56: program bank 0 starts where the trainer ends. -/
@[simp] theorem prgOff_zero (f6 : Byte) : prgOff f6 0 = 16 + trainerBytes f6 := rfl

/-- R56: a program bank starts where the one before it ends. -/
theorem prgOff_succ (f6 : Byte) (i : Nat) :
    prgOff f6 (i + 1) = prgOff f6 i + Config.prgBankSize := by
  simp only [prgOff, Nat.mul_succ, Nat.add_assoc]

/-- R57: graphics bank 0 starts where the last program bank ends. -/
@[simp] theorem chrOff_zero (f6 prgn : Byte) : chrOff f6 prgn 0 = prgOff f6 prgn.toNat := rfl

/-- R57: a graphics bank starts where the one before it ends. -/
theorem chrOff_succ (f6 prgn : Byte) (i : Nat) :
    chrOff f6 prgn (i + 1) = chrOff f6 prgn i + Config.chrBankSize := by
  simp only [chrOff, Nat.mul_succ, Nat.add_assoc]

/-- R59: tile record 0 starts with its bank. -/
@[simp] theorem tileOff_zero (f6 prgn : Byte) (b : Nat) :
    tileOff f6 prgn b 0 = chrOff f6 prgn b := rfl

/-- R144: the last tile record ends with its bank, because a bank is a whole number of records. -/
theorem tileOff_last_end (f6 prgn : Byte) (b : Nat) :
    tileOff f6 prgn b (Config.tilesPerBank - 1) + 16 = chrOff f6 prgn (b + 1) := by
  have hpos := Config.tilesPerBank_pos
  have hbank := Config.tilesPerBank_mul
  rw [chrOff_succ, tileOff, Config.tileSize]
  omega

/-- Settles O28, border by border. -/
theorem theRegionsOfTheMapFollowOneAnother : Obligations.TheRegionsOfTheMapFollowOneAnother :=
  fun f6 prgn _ i => ⟨prgOff_zero f6, prgOff_succ f6 i, chrOff_zero f6 prgn,
    chrOff_succ f6 prgn i, rfl, tileOff_zero f6 prgn i, tileOff_last_end f6 prgn i⟩

/-- Settles O41: both commands read byte 6 once `PRGN` is known, and graphics bank 0 starts where
the program banks end. -/
theorem chroffZeroAndPrgoffOfTheBankCountAgree :
    Obligations.ChroffZeroAndPrgoffOfTheBankCountAgree := by
  intro s hinv hr
  obtain ⟨prgn, hprgn⟩ := hinv.header hr (a := 4) (by decide)
  have hindex : (prgn.setWidth 16).toNat = prgn.toNat := BitVec.toNat_setWidth_of_le (by decide)
  refine ⟨prgn, hprgn, ?_⟩
  simp only [exec, execChroff, execPrgoff, withByte_some hprgn, hindex,
    BitVec.ofNat_eq_ofNat, BitVec.toNat_zero, chrOff_zero]

/-! ### What an accessor ends in -/

/-- The ways an accessor ends: an error, a view of the image, or a fault. -/
inductive EndsInView (s : State) : Result → Prop where
  | error (e : ErrorKind) : EndsInView s (raise e s)
  | view (off size : Nat) : EndsInView s (respondView off size s)
  | fault (f : Fault) : EndsInView s (.fault f)

namespace EndsInView
variable {s : State}

/-- A number is the empty view at itself: reading no byte always answers (R11). -/
theorem number (n : Nat) : EndsInView s (respond n 0 [] s) := .view n 0

theorem ite {p : Prop} [Decidable p] {R R' : Result} (h : EndsInView s R)
    (h' : EndsInView s R') : EndsInView s (if p then R else R') := by
  split
  · exact h
  · exact h'

theorem whenReady {R : Result} (h : EndsInView s R) : EndsInView s (whenReady s R) :=
  h.ite (.error .notDecoded)

theorem withByte {a : Nat} {body : Byte → Result} (h : ∀ b, EndsInView s (body b)) :
    EndsInView s (withByte s a body) := by
  unfold Machine.withByte
  split
  · exact h _
  · exact .fault _

theorem checkedView (off size : Nat) : EndsInView s (checkedView off size s) :=
  (view off size).ite (.error .rangeError)

theorem execTitle : EndsInView s (execTitle s) := by
  refine .whenReady (.withByte fun f6 => .withByte fun prgn => .withByte fun chrn =>
    .ite (.number _) ?_)
  split
  · exact .view _ _
  · exact .fault _

theorem exec_accessor {i : Instr} (hi : i.isAccessor = true) : EndsInView s (exec i s) := by
  cases i with
  | decode | reset => cases hi
  | prgcnt | chrcnt | mirror | battery | trainer | ramcnt | prgoff _ =>
    exact .whenReady (.withByte fun _ => .number _)
  | mapper | chroff _ => exact .whenReady (.withByte fun _ => .withByte fun _ => .number _)
  | prgslice _ =>
    exact .whenReady (.withByte fun _ => .ite (.error _) (.withByte fun _ => .checkedView _ _))
  | chrslice _ =>
    exact .whenReady (.withByte fun _ => .ite (.error _)
      (.withByte fun _ => .withByte fun _ => .checkedView _ _))
  | trnslice => exact .whenReady (.withByte fun _ => .checkedView _ _)
  | title => exact .execTitle
  | tile _ _ =>
    exact .whenReady (.withByte fun _ => .ite (.error _) (.ite (.error _)
      (.withByte fun _ => .withByte fun _ => .ite (.view _ _) (.error _))))

end EndsInView

/-! ### What a response delivers -/

/-- An error, or the success of a range read of this image. -/
def Response.ReadsFrom (m : Memory) (r : Response) : Prop :=
  (∃ e, r = errorResponse e) ∨
    ∃ off size d, m.memRead off size = some d ∧ r = okResponse off size d

/-- `DECODE` and `RESET` deliver nothing, which is the empty range of any image. -/
theorem okResponse_empty_readsFrom (m : Memory) : (okResponse 0 0 []).ReadsFrom m :=
  .inr ⟨0, 0, [], Memory.memRead_zero m 0, rfl⟩

theorem EndsInView.readsFrom {s t : State} {R : Result} (hR : EndsInView s R) (h : R = .next t) :
    ∃ r, r.ReadsFrom s.img ∧ t = s.deliver r := by
  cases hR with
  | error e =>
    cases h
    exact ⟨_, .inl ⟨e, rfl⟩, rfl⟩
  | view off size =>
    unfold respondView at h
    split at h
    · cases h
      exact ⟨_, .inr ⟨off, size, _, ‹_›, rfl⟩, rfl⟩
    · cases h
  | fault f => cases h

/-- The one response of a command that answers (R12) is an error or a range read of the image the
command found. -/
theorem exec_response_readsFrom {i : Instr} {s t : State} (h : exec i s = .next t) :
    ∃ r, r.ReadsFrom s.img ∧ t.responses = s.responses ++ [r] := by
  by_cases ha : i.isAccessor = true
  · obtain ⟨r, hr, rfl⟩ := (EndsInView.exec_accessor ha).readsFrom h
    exact ⟨r, hr, rfl⟩
  · cases i with
    | decode =>
      simp only [exec] at h
      obtain ⟨-, he⟩ | ⟨-, -, he⟩ | ⟨-, -, -, he⟩ | ⟨-, -, -, -, he⟩ := execDecode_cases s <;>
        rw [he] at h <;> cases h
      · exact ⟨_, .inl ⟨_, rfl⟩, rfl⟩
      · exact ⟨_, .inl ⟨_, rfl⟩, rfl⟩
      · exact ⟨_, okResponse_empty_readsFrom _, rfl⟩
    | reset =>
      cases h
      exact ⟨_, okResponse_empty_readsFrom _, rfl⟩
    | _ => exact absurd rfl ha

/-- A non-empty range that reads lies inside the buffer, so both its numbers are exact in 32 bits
(R8, R24, R60). -/
theorem StateInv.range_of_memRead {s : State} (hinv : StateInv s) {off size : Nat} {d : List Byte}
    (hd : s.img.memRead off size = some d) (hsize : size ≠ 0) :
    off + size ≤ s.len ∧ (zext32 off).toNat = off ∧ (zext32 size).toNat = size := by
  obtain ⟨hwf, hlen, -⟩ := hinv
  have hfits : off + size ≤ s.len := Memory.fits_of_memRead hwf hd hsize
  rw [Config.lenMax] at hlen
  exact ⟨hfits, zext32_toNat (by omega), zext32_toNat (by omega)⟩

/-- Settles O25: an empty view delivers nothing; any other is a range read whose numbers are
exact. -/
theorem everyViewDeliversTheImagesOwnBytes : Obligations.EveryViewDeliversTheImagesOwnBytes := by
  intro i s t r hinv h hresp hok
  obtain ⟨r', hr', hresp'⟩ := exec_response_readsFrom h
  obtain rfl : r = r' := by simpa using hresp.symm.trans hresp'
  obtain ⟨e, rfl⟩ | ⟨off, size, d, hd, rfl⟩ := hr'
  · cases hok
  · obtain ⟨hlen, hbytes⟩ := Memory.memRead_spec hd
    by_cases hsize : size = 0
    · subst hsize
      exact ⟨hlen, fun j hj => absurd hj (Nat.not_lt_zero j), fun hne => absurd rfl hne⟩
    · obtain ⟨hfits, hoff, hsz⟩ := hinv.range_of_memRead hd hsize
      simp only [okResponse, hoff, hsz]
      exact ⟨hlen, hbytes, fun _ => hfits⟩

end Sys2Proof.Machine


/-! PROOFS, family 30_encoding.md. The round trip carries the encoding: a word decodes to an
instruction exactly when it is that instruction's word, so what holds of the opcode map and of the
illegal words is read off from the words of the sixteen instructions. For `DESCRIBE`, a command that
cannot raise `RangeError` raises nothing in state Ready; for `TILES`, a record is a piece of its
bank's view; for the assembler, each line has one lemma by its form and each name one by its
table. -/

namespace Sys2Proof

/-! ### The round trip -/

theorem formatN_wordN (op : BitVec 8) (i : Instr) : formatN (wordN op) i = .instr i :=
  if_pos (wordN_reserved op)

theorem formatI_wordI (op : BitVec 8) (n : BitVec 16) (mk : BitVec 16 → Instr) :
    formatI (wordI op n) mk = .instr (mk n) := by
  rw [formatI, if_pos (wordI_reserved op n), wordI_index]

theorem formatT_wordT (op b : BitVec 8) (k : BitVec 16) (mk : BitVec 8 → BitVec 16 → Instr) :
    formatT (wordT op b k) mk = .instr (mk b k) := by
  rw [formatT, wordT_bank, wordT_record]

/-- Settles O1, by format: the opcode of the word selects the instruction's arm, and the fields of
the word are the operands it was made of. -/
theorem decodingAnEncodedInstructionGivesItBack :
    Obligations.DecodingAnEncodedInstructionGivesItBack := by
  intro i
  cases i with
  | prgoff n | chroff n | prgslice n | chrslice n =>
    rw [decode, encode, wordI_opcode]
    exact formatI_wordI _ n _
  | tile b k =>
    rw [decode, encode, wordT_opcode]
    exact formatT_wordT _ b k _
  | _ => exact formatN_wordN _ _

@[simp] theorem decode_encode (i : Instr) : decode (encode i) = .instr i :=
  decodingAnEncodedInstructionGivesItBack i

/-! One lemma per format: a word that an arm of the decoder accepts is the word of the instruction
the arm gives, because the opcode and the reserved bits leave the operands alone free. -/

section
variable {w : CommandWord} {op : Nat} (ho : (opcodeField w).toNat = op) {i : Instr}
include ho

theorem encode_of_formatN {j : Instr} (hj : encode j = wordN (.ofNat 8 op))
    (h : formatN w j = .instr i) : encode i = w := by
  unfold formatN at h
  split at h
  · cases h
    rw [hj, ← eq_wordN ho ‹_›]
  · cases h

theorem encode_of_formatI {mk : BitVec 16 → Instr}
    (hmk : ∀ n, encode (mk n) = wordI (.ofNat 8 op) n) (h : formatI w mk = .instr i) :
    encode i = w := by
  unfold formatI at h
  split at h
  · cases h
    rw [hmk, ← eq_wordI ho ‹_›]
  · cases h

theorem encode_of_formatT {mk : BitVec 8 → BitVec 16 → Instr}
    (hmk : ∀ b k, encode (mk b k) = wordT (.ofNat 8 op) b k) (h : formatT w mk = .instr i) :
    encode i = w := by
  cases h
  rw [hmk, ← eq_wordT ho]

end

/-- Settles O2, by the arms of the decoder, each by its format. -/
theorem everyLegalWordIsTheEncodingOfItsInstruction :
    Obligations.EveryLegalWordIsTheEncodingOfItsInstruction := by
  intro w i h
  unfold decode at h
  split at h
  case h_1 ho | h_2 ho | h_3 ho | h_4 ho | h_5 ho | h_6 ho | h_7 ho | h_8 ho | h_9 ho | h_14 ho |
      h_15 ho =>
    exact encode_of_formatN ho rfl h
  case h_10 ho | h_11 ho | h_12 ho | h_13 ho => exact encode_of_formatI ho (fun _ => rfl) h
  case h_16 ho => exact encode_of_formatT ho (fun _ _ => rfl) h
  case h_17 => cases h

/-- The decoder and the encoder are inverse to each other on the legal words (R86, R88). -/
theorem decode_eq_instr_iff {w : CommandWord} {i : Instr} : decode w = .instr i ↔ encode i = w :=
  ⟨everyLegalWordIsTheEncodingOfItsInstruction w i, fun h => h ▸ decode_encode i⟩

theorem encode_injective : Function.Injective encode := fun i _ h =>
  Decoded.instr.inj ((decode_encode i).symm.trans (decode_eq_instr_iff.2 h.symm))

/-- Settles O5, by running the decoder on the twelve words. -/
theorem sampleWordsDecodeAsTheSpecEncodesThem :
    Obligations.SampleWordsDecodeAsTheSpecEncodesThem := by
  unfold Obligations.SampleWordsDecodeAsTheSpecEncodesThem
  decide

/-! ### The opcode map -/

theorem encode_matches_row (i : Instr) : Laws.EncodedWord.Statement i := by
  cases i with
  | decode => exact Laws.EncodedWord.decode
  | reset => exact Laws.EncodedWord.reset
  | prgcnt => exact Laws.EncodedWord.prgcnt
  | chrcnt => exact Laws.EncodedWord.chrcnt
  | mirror => exact Laws.EncodedWord.mirror
  | battery => exact Laws.EncodedWord.battery
  | trainer => exact Laws.EncodedWord.trainer
  | mapper => exact Laws.EncodedWord.mapper
  | ramcnt => exact Laws.EncodedWord.ramcnt
  | prgoff n => exact Laws.EncodedWord.prgoff n
  | chroff n => exact Laws.EncodedWord.chroff n
  | prgslice n => exact Laws.EncodedWord.prgslice n
  | chrslice n => exact Laws.EncodedWord.chrslice n
  | trnslice => exact Laws.EncodedWord.trnslice
  | title => exact Laws.EncodedWord.title
  | tile b k => exact Laws.EncodedWord.tile b k

/-- A word that matches a row is the word of an instruction of the row's mnemonic: the mask leaves
the operand fields alone free (R86). -/
theorem encode_of_row {w : CommandWord} {r : OpcodeRow} (hr : r ∈ opcodeRows)
    (h : w &&& r.mask = r.pattern) : ∃ i, encode i = w ∧ i.mnemonic = r.mnemonic := by
  simp only [opcodeRows, metadataRows, regionRows, List.cons_append, List.nil_append,
    List.mem_cons, List.not_mem_nil, or_false] at hr
  obtain rfl | rfl | rfl | rfl | rfl | rfl | rfl | rfl | rfl | rfl | rfl | rfl | rfl | rfl | rfl |
    rfl := hr
  · exact ⟨.decode, (eq_wordN_of_mask h).symm, rfl⟩
  · exact ⟨.reset, (eq_wordN_of_mask h).symm, rfl⟩
  · exact ⟨.prgcnt, (eq_wordN_of_mask h).symm, rfl⟩
  · exact ⟨.chrcnt, (eq_wordN_of_mask h).symm, rfl⟩
  · exact ⟨.mirror, (eq_wordN_of_mask h).symm, rfl⟩
  · exact ⟨.battery, (eq_wordN_of_mask h).symm, rfl⟩
  · exact ⟨.trainer, (eq_wordN_of_mask h).symm, rfl⟩
  · exact ⟨.mapper, (eq_wordN_of_mask h).symm, rfl⟩
  · exact ⟨.ramcnt, (eq_wordN_of_mask h).symm, rfl⟩
  · exact ⟨.prgoff _, (eq_wordI_of_mask h).symm, rfl⟩
  · exact ⟨.chroff _, (eq_wordI_of_mask h).symm, rfl⟩
  · exact ⟨.prgslice _, (eq_wordI_of_mask h).symm, rfl⟩
  · exact ⟨.chrslice _, (eq_wordI_of_mask h).symm, rfl⟩
  · exact ⟨.trnslice, (eq_wordN_of_mask h).symm, rfl⟩
  · exact ⟨.title, (eq_wordN_of_mask h).symm, rfl⟩
  · exact ⟨.tile _ _, (eq_wordT_of_mask h).symm, rfl⟩

/-- Settles O3: legal words and words that match a row are both the words of the instructions. -/
theorem decoderAcceptsExactlyTheOpcodeMap : Obligations.DecoderAcceptsExactlyTheOpcodeMap := by
  refine fun w => ⟨fun i h => ?_, fun r hr h => ?_⟩
  · obtain ⟨r, hr, hsel, hmnemonic⟩ := encode_matches_row i
    rw [decode_eq_instr_iff.1 h] at hsel
    exact ⟨r, hr, eq_of_beq hsel, hmnemonic⟩
  · obtain ⟨i, hi, hmnemonic⟩ := encode_of_row hr h
    exact ⟨i, decode_eq_instr_iff.2 hi, hmnemonic⟩

theorem opcodeRow_eq_of_mnemonic_eq : ∀ r ∈ opcodeRows, ∀ r' ∈ opcodeRows,
    r.mnemonic = r'.mnemonic → r = r' := by
  decide

/-- Settles O4: the two rows have the mnemonic of the one instruction the word stands for. -/
theorem noWordMatchesTwoRows : Obligations.NoWordMatchesTwoRows := by
  intro w r hr r' hr' h h'
  obtain ⟨i, hi, hmnemonic⟩ := encode_of_row hr h
  obtain ⟨i', hi', hmnemonic'⟩ := encode_of_row hr' h'
  obtain rfl : i = i' := encode_injective (hi.trans hi'.symm)
  exact opcodeRow_eq_of_mnemonic_eq r hr r' hr' (hmnemonic.symm.trans hmnemonic')

/-! ### The illegal words -/

theorem div_of_opcodeField {w : CommandWord} {op : BitVec 8} (h : opcodeField w = op) :
    w.toNat / 2 ^ 24 = op.toNat := by
  rw [← opcodeField_toNat, h]

/-- The word of an instruction has an assigned opcode, and zero in the reserved bits of its format
(R81 to R83, R86). -/
theorem encode_fields (i : Instr) :
    ((encode i).toNat / 2 ^ 24 ∈
        [0x01, 0x02, 0x10, 0x11, 0x12, 0x13, 0x14, 0x15, 0x16, 0x24, 0x25] ∧
      (encode i).toNat % 2 ^ 24 = 0) ∨
    ((encode i).toNat / 2 ^ 24 ∈ [0x20, 0x21, 0x22, 0x23] ∧
      (encode i).toNat / 2 ^ 16 % 2 ^ 8 = 0) ∨
    (encode i).toNat / 2 ^ 24 = 0x26 := by
  cases i with
  | prgoff n | chroff n | prgslice n | chrslice n =>
    refine .inr (.inl ⟨?_, (reservedI_iff _).1 (wordI_reserved _ n)⟩)
    rw [encode, div_of_opcodeField (wordI_opcode _ n)]
    decide
  | tile b k => exact .inr (.inr (div_of_opcodeField (wordT_opcode _ b k)))
  | _ => exact .inl (by decide)

/-! ### The records of a graphics bank, in number -/

theorem Config.tilesPerBank_eq : Config.tilesPerBank = Config.chrBankSize / 16 := rfl

/-- R8 bounds 65535 graphics banks, so the records of one bank are numbered in 16 bits. -/
theorem Config.tilesPerBank_lt : Config.tilesPerBank < 2 ^ 16 := by
  have hmul := Config.tilesPerBank_mul
  have hsize := Config.sizes_exact.2
  generalize Config.prgBankSize = p at hsize
  generalize Config.chrBankSize = c at hmul hsize
  omega

/-- Every record number is an operand of `TILE` (R84). -/
theorem Config.record_toNat {k : Nat} (hk : k < Config.tilesPerBank) :
    (BitVec.ofNat 16 k).toNat = k :=
  Nat.mod_eq_of_lt (hk.trans Config.tilesPerBank_lt)

end Sys2Proof

namespace Sys2Proof.Machine

/-- Settles O8: such a word is the word of no instruction, so it matches no row and decodes to
none. -/
theorem unassignedOpcodesAndReservedBitsRaiseIllegalCommand :
    Obligations.UnassignedOpcodesAndReservedBitsRaiseIllegalCommand := by
  intro s c rest op hin hop hbad
  have hne : ∀ i, encode i ≠ c.word := by
    intro i hi
    have hfields := encode_fields i
    rw [hi, hop] at hfields
    simp only [List.mem_cons, List.not_mem_nil, or_false] at hfields hbad
    omega
  refine ⟨fun r hr hsel => ?_, ?_⟩
  · obtain ⟨i, hi, -⟩ := encode_of_row hr hsel
    exact hne i hi
  · rw [step_illegal hin fun i hi => hne i (decode_eq_instr_iff.1 hi), raise, State.deliver, hin]
    rfl

/-! ### `DESCRIBE` -/

/-- If the result is a next state, it is `s` with an `OK` response delivered. -/
def NeverRaises (s : State) (R : Result) : Prop :=
  ∀ t, R = .next t → ∃ r, r.st = .ok ∧ t = s.deliver r

theorem respond_neverRaises (r0 r1 : Nat) (data : List Byte) (s : State) :
    NeverRaises s (respond r0 r1 data s) :=
  fun _ h => ⟨_, rfl, (Host.Outcome.next.inj h).symm⟩

theorem fault_neverRaises (f : Fault) (s : State) : NeverRaises s (.fault f) := by
  rintro t ⟨⟩

theorem whenReady_neverRaises {s : State} {R : Result} (hr : s.ready = true)
    (h : NeverRaises s R) : NeverRaises s (whenReady s R) := by
  rwa [whenReady_ready hr]

theorem withByte_neverRaises {s : State} {a : Nat} {body : Byte → Result}
    (h : ∀ b, NeverRaises s (body b)) : NeverRaises s (withByte s a body) := by
  unfold withByte
  split
  · exact h _
  · exact fault_neverRaises _ s

theorem respondView_neverRaises (off size : Nat) (s : State) :
    NeverRaises s (respondView off size s) := by
  unfold respondView
  split
  · exact respond_neverRaises _ _ _ s
  · exact fault_neverRaises _ s

/-- `TITLE` answers a missing title with the empty view (R143). -/
theorem execTitle_neverRaises {s : State} (hr : s.ready = true) : NeverRaises s (execTitle s) := by
  refine whenReady_neverRaises hr (withByte_neverRaises fun f6 => withByte_neverRaises fun prgn =>
    withByte_neverRaises fun chrn => ?_)
  dsimp only
  split
  · exact respond_neverRaises _ 0 [] s
  · split
    · exact respondView_neverRaises _ _ s
    · exact fault_neverRaises _ s

/-- In state Ready an accessor that cannot raise `RangeError` raises nothing (R170). -/
theorem exec_neverRaises {i : Instr} {s : State} (hi : i.isAccessor = true)
    (hrange : canRaiseRangeError i = false) (hr : s.ready = true) :
    NeverRaises s (exec i s) := by
  have hd := fun n => respond_neverRaises n 0 [] s
  cases i with
  | decode | reset => cases hi
  | prgslice _ | chrslice _ | trnslice | tile _ _ => cases hrange
  | title => exact execTitle_neverRaises hr
  | mapper | chroff _ =>
    exact whenReady_neverRaises hr (withByte_neverRaises fun _ => withByte_neverRaises fun _ =>
      hd _)
  | prgcnt | chrcnt | mirror | battery | trainer | ramcnt | prgoff _ =>
    exact whenReady_neverRaises hr (withByte_neverRaises fun _ => hd _)

/-- A step on such a command answers `OK` and leaves the block. -/
theorem StateInv.step_ok {s : State} {i : Instr} {rest : List HostEvent} (hinv : StateInv s)
    (hr : s.ready = true) (hi : i.isAccessor = true) (hrange : canRaiseRangeError i = false)
    (hin : s.input = .command ⟨encode i, []⟩ :: rest) :
    ∃ r, r.st = .ok ∧ Machine.step s = .next (s.deliver r) := by
  have hbulk : bulkOperand s = [] := bulkOperand_head hin
  obtain ⟨t, ht⟩ := hinv.exec_continues (i := i) (by simp [hbulk])
  obtain ⟨r, hok, rfl⟩ := exec_neverRaises hi hrange hr t ht
  exact ⟨r, hok, (step_command hin (decode_encode i)).trans ht⟩

/-- A program of such commands, by induction on it: one step and one `OK` response for each. -/
theorem StateInv.run_program_ok {s : State} {is : List Instr} {rest : List HostEvent}
    (hinv : StateInv s) (hr : s.ready = true) (hin : s.input = program is ++ rest)
    (his : ∀ i ∈ is, i.isAccessor = true ∧ canRaiseRangeError i = false) :
    ∃ rs : List Response, core.run is.length s =
        .next (State.mk s.ready s.img rest (s.responses ++ rs)) ∧
      rs.length = is.length ∧ ∀ r ∈ rs, r.st = .ok := by
  induction is generalizing s with
  | nil =>
    obtain rfl : s.input = rest := hin
    exact ⟨[], by rw [List.append_nil]; rfl, rfl, by simp⟩
  | cons i is ih =>
    obtain ⟨⟨hacc, hrange⟩, his⟩ := List.forall_mem_cons.1 his
    obtain ⟨r, hok, hstep⟩ := hinv.step_ok hr hacc hrange hin
    obtain ⟨rs, hrun, hlen, hrs⟩ := ih (hinv.deliver r) hr (congrArg List.tail hin) his
    refine ⟨r :: rs, ?_, congrArg Nat.succ hlen, List.forall_mem_cons.2 ⟨hok, hrs⟩⟩
    rw [List.length_cons, core_run_succ hstep, hrun, State.deliver_responses, List.append_assoc]
    rfl

/-- Settles O49: the eight are accessors, and none of them can raise `RangeError`. -/
theorem describeAnswersEightTimesOk : Obligations.DescribeAnswersEightTimesOk :=
  ⟨rfl, fun _ _ hinv hr hin => hinv.run_program_ok hr hin (by decide)⟩

/-! ### `TILES`: the list -/

@[simp] theorem length_tilesOfBank (b : Nat) :
    (tilesOfBank b).length = Config.tilesPerBank := by
  rw [tilesOfBank, List.length_map, List.length_range]

theorem getElem?_tilesOfBank (b : Nat) {k : Nat} (hk : k < Config.tilesPerBank) :
    (tilesOfBank b)[k]? = some (.tile (.ofNat 8 b) (.ofNat 16 k)) := by
  rw [tilesOfBank, List.getElem?_map, List.getElem?_range hk, Option.map_some]

/-- Position `b * n + k` of lists of length `n` in a row is position `k` of list `b`. -/
theorem getElem?_flatMap_of_length {α β : Type} {f : α → List β} {n : Nat}
    (hf : ∀ a, (f a).length = n) (l : List α) (b : Nat) {k : Nat} (hk : k < n) :
    (l.flatMap f)[b * n + k]? = l[b]?.bind fun a => (f a)[k]? := by
  induction l generalizing b with
  | nil => rfl
  | cons a l ih =>
    rw [List.flatMap_cons]
    cases b with
    | zero =>
      rw [Nat.zero_mul, Nat.zero_add, List.getElem?_append_left (by rwa [hf])]
      rfl
    | succ b =>
      have hpos : (b + 1) * n + k = n + (b * n + k) := by
        rw [Nat.succ_mul]
        omega
      rw [List.getElem?_cons_succ, ← ih b, hpos,
        List.getElem?_append_right (by rw [hf]; exact Nat.le_add_right _ _), hf,
        Nat.add_sub_cancel_left]

/-- Settles O50: the banks are lists of one length in a row. -/
theorem tilesListsEveryRecordInOrder : Obligations.TilesListsEveryRecordInOrder := by
  refine fun chrn => ⟨?_, fun b k hb hk => ⟨.ofNat 8 b, .ofNat 16 k, ?_, ?_, ?_⟩⟩
  · simp [tiles, List.length_flatMap, Config.tilesPerBank_eq]
  · exact Nat.mod_eq_of_lt (hb.trans chrn.isLt)
  · exact Config.record_toNat hk
  · refine (getElem?_flatMap_of_length length_tilesOfBank _ b hk).trans ?_
    rw [List.getElem?_range hb]
    exact getElem?_tilesOfBank b hk

/-! ### `TILES`: the records -/

theorem State.deliver_inj {s : State} {r r' : Response} (h : s.deliver r = s.deliver r') :
    r = r' := by
  simpa using congrArg State.responses h

/-- A range read inside another is a piece of what that one reads. -/
theorem Memory.memRead_piece {m : Memory} (hwf : m.wf = true) {a n k c : Nat} {d : List Byte}
    (hfits : a + n ≤ m.length) (hd : m.memRead a n = some d) (hk : k + c ≤ n) :
    m.memRead (a + k) c = some ((d.drop k).take c) := by
  rw [Memory.memRead_eq_take hwf hfits, Option.some_inj] at hd
  rw [Memory.memRead_eq_take hwf (by omega), ← hd, List.drop_take, List.drop_drop, List.take_take,
    min_eq_left (by omega)]

/-- The pieces of `c` elements, `n` of them in a row, join to the first `c * n` elements. -/
theorem flatten_map_range_pieces {α : Type} (l : List α) (c n : Nat) :
    ((List.range n).map fun k => (l.drop (c * k)).take c).flatten = l.take (c * n) := by
  induction n with
  | zero => rfl
  | succ n ih => simp [List.range_succ, ih, Nat.mul_succ, List.take_add]

section
variable {s : State} (hr : s.ready = true) {prgn chrn f6 : Byte}
  (h4 : s.img.read? 4 = some prgn) (h5 : s.img.read? 5 = some chrn)
  (h6 : s.img.read? 6 = some f6)
include hr h4 h5 h6

theorem execChrslice_ready (i : BitVec 16) : execChrslice i s =
    if chrn.toNat ≤ i.toNat then raise .rangeError s
    else checkedView (chrOff f6 prgn i.toNat) Config.chrBankSize s := by
  rw [execChrslice, whenReady_ready hr, withByte_some h5, withByte_some h6, withByte_some h4]

/-- A record of a bank that exists and fits is answered with its view (R144). -/
theorem execTile_view {b : BitVec 8} {k : BitVec 16} (hb : b.toNat < chrn.toNat)
    (hk : k.toNat < Config.tilesPerBank)
    (hfits : chrOff f6 prgn b.toNat + Config.chrBankSize ≤ s.len) :
    execTile b k s = respondView (tileOff f6 prgn b.toNat k.toNat) Config.tileSize s := by
  rw [execTile, whenReady_ready hr, withByte_some h5, if_neg (Nat.not_le.2 hb),
    if_neg (Nat.not_le.2 hk), withByte_some h6, withByte_some h4]
  exact if_pos (decide_eq_true hfits)

/-- When `CHRSLICE` answers `OK`, the bank exists and fits, and the data is the bank (R141). -/
theorem chrslice_ok_bank (hwf : s.img.wf = true) {i : BitVec 16} {v0 v1 : Value} {d : List Byte}
    (h : Answers (.chrslice i) s ⟨.ok, v0, v1, d⟩) :
    i.toNat < chrn.toNat ∧ chrOff f6 prgn i.toNat + Config.chrBankSize ≤ s.len ∧
      s.img.memRead (chrOff f6 prgn i.toNat) Config.chrBankSize = some d := by
  have hexec : execChrslice i s = .next (s.deliver ⟨.ok, v0, v1, d⟩) := h
  rw [execChrslice_ready hr h4 h5 h6] at hexec
  by_cases hi : chrn.toNat ≤ i.toNat
  · rw [if_pos hi] at hexec
    cases State.deliver_inj (Host.Outcome.next.inj hexec)
  rw [if_neg hi] at hexec
  by_cases hfits : chrOff f6 prgn i.toNat + Config.chrBankSize ≤ s.len
  · obtain ⟨d', hd⟩ := Memory.memRead_of_fits hwf hfits
    rw [checkedView_fits hfits, respondView_some hd] at hexec
    cases State.deliver_inj (Host.Outcome.next.inj hexec)
    exact ⟨Nat.lt_of_not_le hi, hfits, hd⟩
  · rw [checkedView_not_fits hfits] at hexec
    cases State.deliver_inj (Host.Outcome.next.inj hexec)

end

/-- When `CHRSLICE b` answers a view, the view is one bank long, and `TILE b, k` answers its 16
bytes from `16k` for every record `k` (R144). -/
theorem StateInv.tiles_of_chrslice {s : State} (hinv : StateInv s) (hr : s.ready = true)
    {b : BitVec 8} {v0 v1 : Value} {d : List Byte}
    (h : Answers (.chrslice (b.setWidth 16)) s ⟨.ok, v0, v1, d⟩) :
    d.length = Config.chrBankSize ∧ ∀ k : BitVec 16, k.toNat < Config.tilesPerBank →
      ∃ w0 : Value, Answers (.tile b k) s ⟨.ok, w0, 16, (d.drop (16 * k.toNat)).take 16⟩ := by
  obtain ⟨prgn, h4⟩ := hinv.header hr (a := 4) (by decide)
  obtain ⟨chrn, h5⟩ := hinv.header hr (a := 5) (by decide)
  obtain ⟨f6, h6⟩ := hinv.header hr (a := 6) (by decide)
  have hindex : (b.setWidth 16).toNat = b.toNat := BitVec.toNat_setWidth_of_le (by decide)
  obtain ⟨hb, hfits, hd⟩ := chrslice_ok_bank hr h4 h5 h6 hinv.1 h
  rw [hindex] at hb hfits hd
  refine ⟨(Memory.memRead_spec hd).1, fun k hk => ?_⟩
  have hbank := Config.tilesPerBank_mul
  have hpiece := Memory.memRead_piece hinv.1 hfits hd (k := 16 * k.toNat) (c := 16) (by omega)
  exact ⟨_, (execTile_view hr h4 h5 h6 hb hk hfits).trans (respondView_some hpiece)⟩

/-- Settles O48: the pieces of the view, 16 bytes each, join to the view. -/
theorem theTilesOfABankJoinToTheBank : Obligations.TheTilesOfABankJoinToTheBank := by
  intro s b v0 v1 d hinv hr h
  obtain ⟨hlen, htile⟩ := hinv.tiles_of_chrslice hr h
  refine ⟨(List.range Config.tilesPerBank).map fun k => (d.drop (16 * k)).take 16, ?_, ?_⟩
  · rw [tilesOfBank, List.forall₂_map_left_iff, List.forall₂_map_right_iff, List.forall₂_same]
    intro k hk
    have hnum := Config.record_toNat (List.mem_range.1 hk)
    have hpiece := htile (.ofNat 16 k) (by rwa [hnum, ← List.mem_range])
    rw [hnum] at hpiece
    rwa [BitVec.ofNat_toNat, BitVec.setWidth_eq]
  · rw [flatten_map_range_pieces, Config.tilesPerBank_mul, List.take_of_length_le hlen.le]

/-! ### The assembler -/

/-- The text is one word of an assembler line (R90; log entry 13). -/
def IsWord (cs : List Char) : Prop := cs ≠ [] ∧ ∀ c ∈ cs, isWordChar c = true

theorem IsWord.no_comment {cs : List Char} (h : IsWord cs) : ∀ c ∈ cs, c ≠ ';' := fun c hc => by
  obtain ⟨-, -, -, -, -, hsemi⟩ := isWordChar_ne (h.2 c hc)
  exact hsemi

/-- A line of the mnemonic form with no operand. -/
theorem assembleLine_name (chrn : Byte) {name : List Char} (h : IsWord name) :
    assembleLine chrn name = asmMnemonic chrn (String.ofList name) [] := by
  have htokens : tokensFrom [] (withoutComment name) = some [.word name] := by
    have hword := tokensFrom_word h.2 [] []
    rw [List.append_nil] at hword
    rw [withoutComment_id h.no_comment, hword]
    simp [tokensFrom, endWord, h.1]
  rw [assembleLine, htokens]
  rfl

/-- A line of the call form with no operand. -/
theorem assembleLine_emptyCall (chrn : Byte) {name : List Char} (h : IsWord name) :
    assembleLine chrn (name ++ ['(', ')']) = asmAlias (String.ofList name) [] := by
  have htokens : tokensFrom [] (withoutComment (name ++ ['(', ')'])) =
      some [.word name, .openParen, .closeParen] := by
    have hline : ∀ c ∈ name ++ ['(', ')'], c ≠ ';' :=
      List.forall_mem_append.2 ⟨h.no_comment, by simp⟩
    rw [withoutComment_id hline, tokensFrom_word h.2]
    simp [tokensFrom, endWord, h.1]
  rw [assembleLine, htokens]
  rfl

/-- The source names without operand, each with its mnemonic and command (R86). -/
def plainNames : List (String × String × Instr) :=
  [("prg_bank_count", "PRGCNT", .prgcnt), ("chr_bank_count", "CHRCNT", .chrcnt),
    ("mirror_mode", "MIRROR", .mirror), ("battery_backed_ram", "BATTERY", .battery),
    ("has_trainer", "TRAINER", .trainer), ("mapper_number", "MAPPER", .mapper),
    ("ram_bank_count", "RAMCNT", .ramcnt), ("title", "TITLE", .title)]

/-- The source names with a bank index, each with its mnemonic and command (R86). -/
def indexNames : List (String × String × (BitVec 16 → Instr)) :=
  [("prg_bank_offset", "PRGOFF", .prgoff), ("chr_bank_offset", "CHROFF", .chroff),
    ("prg_bank_slice", "PRGSLICE", .prgslice), ("chr_bank_slice", "CHRSLICE", .chrslice)]

theorem plainNames_words : ∀ e ∈ plainNames, IsWord e.1.toList ∧ IsWord e.2.1.toList := by
  simp [plainNames, IsWord, isWordChar]

theorem indexNames_words : ∀ e ∈ indexNames, IsWord e.1.toList ∧ IsWord e.2.1.toList := by
  simp [indexNames, IsWord, isWordChar]

theorem plainNames_meaning (chrn : Byte) : ∀ e ∈ plainNames,
    asmAlias e.1 [] = some [⟨e.2.2, none⟩] ∧
    asmMnemonic chrn e.2.1 [] = some [⟨e.2.2, none⟩] := by
  simp [plainNames, asmAlias, asmMnemonic, asmFormatN, plainCommand]

theorem indexNames_meaning (chrn : Byte) (cs : List Char) : ∀ e ∈ indexNames,
    asmAlias e.1 [cs] = asmFormatI e.2.2 [cs] ∧
    asmMnemonic chrn e.2.1 [cs] = asmFormatI e.2.2 [cs] := by
  simp [indexNames, asmAlias, asmMnemonic]

theorem decodeNames_meaning (cs : List Char) : ∀ name ∈ ["decode", "ImageDecoder::new"],
    IsWord name.toList ∧ asmAlias name [cs] = asmDecode [cs] := by
  simp [IsWord, isWordChar, asmAlias]

/-- Settles O51, form by form: the line gives the name and its operands, and the tables of source
names and mnemonics give the same command. -/
theorem aSourceCallAssemblesAsItsMnemonic : Obligations.ASourceCallAssemblesAsItsMnemonic := by
  refine fun chrn => ⟨fun e he => ?_, fun cs hne hcs => ⟨fun name hname => ?_, ?_, fun e he => ?_⟩⟩
  · obtain ⟨hcall, hname⟩ := plainNames_words e he
    rw [assembleLine_emptyCall chrn hcall, assembleLine_name chrn hname, String.ofList_toList,
      String.ofList_toList]
    exact plainNames_meaning chrn e he
  · obtain ⟨⟨hpos, hword⟩, halias⟩ := decodeNames_meaning cs name hname
    rw [assembleLine_call chrn hpos hword hne hcs, String.ofList_toList, halias]
    rfl
  · obtain ⟨hpos, hword⟩ : IsWord "DECODE".toList := by simp [IsWord, isWordChar]
    rw [assembleLine_operand chrn hpos hword hne hcs]
    rfl
  · obtain ⟨⟨hcpos, hcall⟩, hnpos, hname⟩ := indexNames_words e he
    obtain ⟨halias, hmnemonic⟩ := indexNames_meaning chrn cs e he
    rw [assembleLine_call chrn hcpos hcall hne hcs, assembleLine_operand chrn hnpos hname hne hcs,
      String.ofList_toList, String.ofList_toList, halias, hmnemonic]
    refine ⟨rfl, fun i hi => ?_⟩
    rw [asmFormatI, hi]
    rfl

end Sys2Proof.Machine

/-! PROOFS, family 40_construction.md. Each clause of R100 is one ending of `DECODE`; the latched
image is the operand's cells. -/

namespace Sys2Proof.Machine

/-- Settles O29: the latch, the mismatch and the state check are the three endings of `DECODE` at an
operand that can be presented. -/
theorem decodeLatchesAValidImageAndNothingElse :
    Obligations.DecodeLatchesAValidImageAndNothingElse := by
  intro s c rest hin
  rw [← bulkOperand_head hin]
  refine fun hb => ⟨fun hidle hlen hmagic => ?_, fun hidle hm => ?_, fun hready => ?_⟩
  · refine ⟨Memory.ofBytes (bulkOperand s), Memory.ofBytes_wf _, Memory.ofBytes_length _,
      Memory.ofBytes_read? _, ?_⟩
    have hrest : s.input.tail = rest := by rw [hin, List.tail_cons]
    rw [← hrest]
    exact execDecode_latch hb hidle hlen hmagic
  · exact execDecode_mismatch hb hidle hm
  · exact execDecode_ready hb hready

/-- Settles O31: `RESET` delivers its response in the cleared block. -/
theorem resetReturnsTheBlockToIdle : Obligations.ResetReturnsTheBlockToIdle :=
  fun _ => rfl

end Sys2Proof.Machine

/-! PROOFS, family 41_metadata.md. In Ready the header exists, so a metadata command answers the
number it computes from its header bytes (`StateInv.exec_headerByte`). What is left of each
statement is that number in arithmetic: one lemma per field. -/

namespace Sys2Proof.Machine

/-! ### The fields of a header byte, in number -/

/-- `v[n]` is the digit of weight `2^n` (R9). -/
theorem bitSet_iff (v : Byte) (n : Nat) : bitSet v n = true ↔ v.toNat / 2 ^ n % 2 = 1 := by
  rw [bitSet, BitVec.getLsbD, Nat.testBit_eq_decide_div_mod_eq, decide_eq_true_iff]

theorem boolNumber_bitSet (v : Byte) (n : Nat) :
    boolNumber (bitSet v n) = v.toNat / 2 ^ n % 2 := by
  rw [boolNumber, if_congr (bitSet_iff v n) rfl rfl]
  split <;> omega

/-- The truth table of R112: four-screen overrides the selector. -/
theorem mirrorMode_number (f6 : Byte) :
    (mirrorMode f6).number = if f6.toNat / 8 % 2 = 1 then 2 else f6.toNat % 2 := by
  have hfsc : flagFsc f6 = true ↔ f6.toNat / 8 % 2 = 1 := bitSet_iff f6 3
  have hmir : boolNumber (flagMir f6) = f6.toNat % 2 := by
    rw [flagMir, boolNumber_bitSet, Nat.pow_zero, Nat.div_one]
  by_cases h : flagFsc f6 = true
  · rw [mirrorMode, if_pos h, if_pos (hfsc.1 h)]
    rfl
  · rw [mirrorMode, if_neg h, if_neg (mt hfsc.2 h), ← hmir]
    cases flagMir f6 <;> rfl

/-- The two upper nibbles do not overlap, so joining them is adding them (R115). -/
theorem mapperNumber_toNat (f6 f7 : Byte) :
    (mapperNumber f6 f7).toNat = f6.toNat / 16 + 16 * (f7.toNat / 16) := by
  have hlow : (f6 >>> 4).toNat = f6.toNat / 16 := by
    rw [BitVec.toNat_ushiftRight, Nat.shiftRight_eq_div_pow]
  have hhigh : ∀ b : Byte, (b &&& 0xF0).toNat = 2 ^ 4 * (b.toNat / 16) := by decide
  have hlt : f6.toNat / 16 < 2 ^ 4 := Nat.div_lt_of_lt_mul f6.isLt
  rw [mapperNumber, BitVec.toNat_or, hlow, hhigh, Nat.or_comm,
    ← Nat.two_pow_add_eq_or_of_lt hlt, Nat.add_comm]

@[simp] theorem ramCount_zero : ramCount 0 = 1 := rfl

theorem ramCount_of_ne_zero {ramb : Byte} (h : ramb ≠ 0) : ramCount ramb = ramb.toNat := if_neg h

/-- The normalised count is never 0 (R116). -/
theorem ramCount_range (ramb : Byte) : 1 ≤ ramCount ramb ∧ ramCount ramb ≤ 255 := by
  by_cases h : ramb = 0
  · rw [h, ramCount_zero]
    decide
  · have hpos : ramb.toNat ≠ 0 := fun h0 => h (BitVec.eq_of_toNat_eq h0)
    have hlt := ramb.isLt
    rw [ramCount_of_ne_zero h]
    omega

/-! ### What a metadata command answers in Ready -/

/-- A number below 2^32 is answered exactly (R8, R12). -/
theorem answersNumber_of_respond {i : Instr} {s : State} {n : Nat}
    (h : exec i s = respond n 0 [] s) (hn : n < 2 ^ 32) : AnswersNumber i s n :=
  ⟨zext32 n, zext32_toNat hn, h⟩

/-- A byte is answered zero-extended (R110, R111). -/
theorem answers_byte_of_respond {i : Instr} {s : State} {b : Byte}
    (h : exec i s = respond b.toNat 0 [] s) : Answers i s ⟨.ok, b.setWidth 32, 0, []⟩ := by
  rw [← zext32_byte]
  exact h

/-- In Ready a command that begins with a header byte goes on with that byte (R25, R163). -/
theorem StateInv.exec_headerByte {s : State} (hinv : StateInv s) (hr : s.ready = true) {i : Instr}
    {a : Nat} (ha : a < 16) {body : Byte → Result}
    (h : exec i s = whenReady s (withByte s a body)) :
    ∃ b, s.img.read? a = some b ∧ exec i s = body b := by
  obtain ⟨b, hb⟩ := hinv.header hr ha
  exact ⟨b, hb, by rw [h, whenReady_ready hr, withByte_some hb]⟩

/-! ### The statements -/

/-- Settles O34: the tagged value is the truth table's. -/
theorem mirrorFollowsItsTruthTable : Obligations.MirrorFollowsItsTruthTable := by
  intro s hinv hr
  obtain ⟨f6, h6, hexec⟩ := hinv.exec_headerByte hr (i := .mirror) (a := 6) (by decide) rfl
  rw [mirrorMode_number] at hexec
  exact ⟨f6, h6, answersNumber_of_respond hexec (by split <;> omega)⟩

/-- Settles O35: the flag is the byte's digit of weight 2. -/
theorem batteryAnswersBitOneOfByteSix : Obligations.BatteryAnswersBitOneOfByteSix := by
  intro s hinv hr
  obtain ⟨f6, h6, hexec⟩ := hinv.exec_headerByte hr (i := .battery) (a := 6) (by decide) rfl
  rw [flagBat, boolNumber_bitSet] at hexec
  exact ⟨f6, h6, answersNumber_of_respond hexec (by omega)⟩

/-- Settles O36: the flag is the byte's digit of weight 4, the one the address functions take. -/
theorem trainerAnswersTheBitThatMovesEveryOffset :
    Obligations.TrainerAnswersTheBitThatMovesEveryOffset := by
  intro s hinv hr
  obtain ⟨f6, h6, hexec⟩ := hinv.exec_headerByte hr (i := .trainer) (a := 6) (by decide) rfl
  rw [flagTrn, boolNumber_bitSet] at hexec
  refine ⟨f6, h6, answersNumber_of_respond hexec (by omega), fun prgn chrn i => ?_⟩
  rw [titleNominal, prgOff_eq, chrOff_eq, chrOff_eq]
  omega

/-- Settles O37: both header bytes are there, and the joined number fits. -/
theorem mapperJoinsTheTwoUpperNibbles : Obligations.MapperJoinsTheTwoUpperNibbles := by
  intro s hinv hr
  obtain ⟨f6, h6, hexec⟩ := hinv.exec_headerByte hr (i := .mapper) (a := 6) (by decide) rfl
  obtain ⟨f7, h7⟩ := hinv.header hr (a := 7) (by decide)
  rw [withByte_some h7, mapperNumber_toNat] at hexec
  exact ⟨f6, f7, h6, h7, answersNumber_of_respond hexec (by omega)⟩

/-- Settles O38: the number is the normalised count. -/
theorem ramcntNormalisesZeroToOne : Obligations.RamcntNormalisesZeroToOne := by
  intro s hinv hr
  obtain ⟨ramb, h8, hexec⟩ := hinv.exec_headerByte hr (i := .ramcnt) (a := 8) (by decide) rfl
  obtain ⟨hpos, hle⟩ := ramCount_range ramb
  refine ⟨ramb, ramCount ramb, h8, fun h => ?_, ramCount_of_ne_zero, hpos, hle,
    answersNumber_of_respond hexec (by omega)⟩
  rw [h, ramCount_zero]

/-- Settles O32: the command answers the header byte it reads. -/
theorem prgcntAnswersByteFour : Obligations.PrgcntAnswersByteFour := by
  intro s hinv hr
  obtain ⟨prgn, h4, hexec⟩ := hinv.exec_headerByte hr (i := .prgcnt) (a := 4) (by decide) rfl
  exact ⟨prgn, h4, answers_byte_of_respond hexec⟩

/-- Settles O33: the command answers the header byte it reads. -/
theorem chrcntAnswersByteFive : Obligations.ChrcntAnswersByteFive := by
  intro s hinv hr
  obtain ⟨chrn, h5, hexec⟩ := hinv.exec_headerByte hr (i := .chrcnt) (a := 5) (by decide) rfl
  exact ⟨chrn, h5, answers_byte_of_respond hexec⟩

end Sys2Proof.Machine

/-! PROOFS, family 42_offsets.md. In Ready an offset command answers its address function
(`StateInv.exec_headerByte`), whose value as R130 and R131 write it fits in 32 bits (R8). -/

namespace Sys2Proof.Machine

/-- Settles O39: the command reads byte 6 alone, and no index gives an offset of 2^32 or more. -/
theorem prgoffAnswersTheExactOffset : Obligations.PrgoffAnswersTheExactOffset := by
  intro s i hinv hr
  obtain ⟨f6, h6, hexec⟩ := hinv.exec_headerByte hr (i := .prgoff i) (a := 6) (by decide) rfl
  have hlt : prgOff f6 i.toNat < 2 ^ 32 :=
    (Nat.le_add_right _ _).trans_lt (prgOff_lt f6 i.isLt)
  rw [prgOff_eq] at hexec hlt
  exact ⟨f6, h6, answersNumber_of_respond hexec hlt⟩

/-- Settles O40: the command reads bytes 4 and 6 alone, and no index gives an offset of 2^32 or
more. -/
theorem chroffAnswersTheExactOffset : Obligations.ChroffAnswersTheExactOffset := by
  intro s i hinv hr
  obtain ⟨prgn, h4, hexec⟩ := hinv.exec_headerByte hr (i := .chroff i) (a := 4) (by decide) rfl
  obtain ⟨f6, h6⟩ := hinv.header hr (a := 6) (by decide)
  have hlt : chrOff f6 prgn i.toNat < 2 ^ 32 :=
    (Nat.le_add_right _ _).trans_lt (chrOff_end_lt f6 prgn i.isLt)
  rw [withByte_some h6, chrOff_eq] at hexec
  rw [chrOff_eq] at hlt
  exact ⟨prgn, f6, h4, h6, answersNumber_of_respond hexec hlt⟩

end Sys2Proof.Machine

/-! PROOFS, family 43_regions.md. A region command in Ready is one view behind one test, so it
answers the view where the test holds and `RangeError` where it fails
(`StateInv.answers_view_or_rangeError`); what is left of each statement is its test in arithmetic.
`TITLE` has no test: its view is pinned by `titleEnd_spec`. -/

namespace Sys2Proof.Machine

/-! ### What a view answers -/

/-- A range read that is answered with exact numbers is a view (R52). -/
theorem answersView_of_memRead {i : Instr} {s : State} {off size : Nat} {d : List Byte}
    (hd : s.img.memRead off size = some d) (hexec : exec i s = respond off size d s)
    (hoff : off < 2 ^ 32) (hsize : size < 2 ^ 32) : AnswersView i s off size := by
  obtain ⟨hlen, hget⟩ := Memory.memRead_spec hd
  refine ⟨zext32 off, zext32 size, d, zext32_toNat hoff, zext32_toNat hsize, hlen,
    fun j hj => ?_, hexec⟩
  have hbyte : d[j]? = some d[j] := List.getElem?_eq_getElem (hlen ▸ hj)
  exact ⟨d[j], (hget j hj).symm.trans hbyte, hbyte⟩

/-- A range inside the image is answered as a view (R60). -/
theorem StateInv.answersView {s : State} (hinv : StateInv s) {i : Instr} {off size : Nat}
    (hfits : off + size ≤ s.len) (hexec : exec i s = respondView off size s) :
    AnswersView i s off size := by
  obtain ⟨hwf, hmax, -⟩ := hinv
  obtain ⟨d, hd⟩ := Memory.memRead_of_fits hwf hfits
  have hlt : off + size < 2 ^ 32 := by
    rw [Config.lenMax] at hmax
    omega
  exact answersView_of_memRead hd (hexec.trans (respondView_some hd)) (by omega) (by omega)

/-- A view behind a test that keeps it inside the image: one answer or the other, by the test. -/
theorem StateInv.answers_view_or_rangeError {s : State} (hinv : StateInv s) {i : Instr}
    {off size : Nat} {p : Prop} [Decidable p] (hfits : p → off + size ≤ s.len)
    (hexec : exec i s = if p then respondView off size s else raise .rangeError s) :
    if p then AnswersView i s off size else AnswersError i s .rangeError := by
  by_cases hp : p
  · rw [if_pos hp] at hexec ⊢
    exact hinv.answersView (hfits hp) hexec
  · rw [if_neg hp] at hexec ⊢
    exact hexec

/-- A command has one answer. -/
theorem Answers.unique {i : Instr} {s : State} {r r' : Response} (h : Answers i s r)
    (h' : Answers i s r') : r = r' :=
  State.deliver_inj (Host.Outcome.next.inj (h.symm.trans h'))

/-- The first number of a view's response is the view's start. -/
theorem AnswersView.start_eq {i : Instr} {s : State} {off size : Nat} (h : AnswersView i s off size)
    {v0 v1 : Value} {d : List Byte} (ha : Answers i s ⟨.ok, v0, v1, d⟩) : v0.toNat = off := by
  obtain ⟨_, _, _, hoff, -, -, -, ha'⟩ := h
  cases ha.unique ha'
  exact hoff

theorem AnswersView.not_answersError {i : Instr} {s : State} {off size : Nat}
    (h : AnswersView i s off size) (e : ErrorKind) : ¬ AnswersError i s e := by
  obtain ⟨_, _, _, -, -, -, -, ha⟩ := h
  exact fun he => by cases he.unique ha

/-! ### What a region command does in Ready -/

/-- The three header bytes that place every region: both bank counts and the flags (R55 to R58). -/
theorem StateInv.mapBytes {s : State} (hinv : StateInv s) (hr : s.ready = true) :
    ∃ prgn chrn f6, s.img.read? 4 = some prgn ∧ s.img.read? 5 = some chrn ∧
      s.img.read? 6 = some f6 := by
  obtain ⟨prgn, h4⟩ := hinv.header hr (a := 4) (by decide)
  obtain ⟨chrn, h5⟩ := hinv.header hr (a := 5) (by decide)
  obtain ⟨f6, h6⟩ := hinv.header hr (a := 6) (by decide)
  exact ⟨prgn, chrn, f6, h4, h5, h6⟩

theorem checkedView_eq_ite (off size : Nat) (s : State) :
    checkedView off size s =
      if off + size ≤ s.len then respondView off size s else raise .rangeError s :=
  if_congr decide_eq_true_iff rfl rfl

/-- An index check before another check is both in one: either alone raises the error (R140). -/
theorem indexCheck_then_check (m n : Nat) (p : Prop) [Decidable p] (R : Result) (s : State) :
    (if n ≤ m then raise .rangeError s else if p then R else raise .rangeError s) =
      if m < n ∧ p then R else raise .rangeError s := by
  by_cases hm : n ≤ m
  · rw [if_pos hm, if_neg fun h => Nat.not_lt.2 hm h.1]
  · rw [if_neg hm, if_congr (and_iff_right (Nat.lt_of_not_le hm)) rfl rfl]

section
variable {s : State} (hinv : StateInv s) (hr : s.ready = true) {prgn chrn f6 : Byte}
  (h4 : s.img.read? 4 = some prgn) (h5 : s.img.read? 5 = some chrn)
  (h6 : s.img.read? 6 = some f6)

include hinv hr h4 h6 in
theorem StateInv.prgslice_answers (i : BitVec 16) :
    if i.toNat < prgn.toNat ∧ prgOff f6 i.toNat + Config.prgBankSize ≤ s.len then
      AnswersView (.prgslice i) s (prgOff f6 i.toNat) Config.prgBankSize
    else AnswersError (.prgslice i) s .rangeError := by
  refine hinv.answers_view_or_rangeError And.right ?_
  rw [exec, execPrgslice, whenReady_ready hr, withByte_some h4, withByte_some h6,
    checkedView_eq_ite, indexCheck_then_check]

include hinv hr h6 in
theorem StateInv.trnslice_answers :
    if 16 + trainerBytes f6 ≤ s.len then AnswersView .trnslice s 16 (trainerBytes f6)
    else AnswersError .trnslice s .rangeError := by
  refine hinv.answers_view_or_rangeError id ?_
  rw [exec, execTrnslice, whenReady_ready hr, withByte_some h6, Config.headerSize,
    checkedView_eq_ite]

include hr h4 h5 h6

include hinv in
theorem StateInv.chrslice_answers (i : BitVec 16) :
    if i.toNat < chrn.toNat ∧ chrOff f6 prgn i.toNat + Config.chrBankSize ≤ s.len then
      AnswersView (.chrslice i) s (chrOff f6 prgn i.toNat) Config.chrBankSize
    else AnswersError (.chrslice i) s .rangeError := by
  refine hinv.answers_view_or_rangeError And.right ?_
  rw [exec, execChrslice_ready hr h4 h5 h6, checkedView_eq_ite, indexCheck_then_check]

include hinv in
/-- The whole bank is tested, and the record lies inside it (R144). -/
theorem StateInv.tile_answers (b : BitVec 8) (k : BitVec 16) :
    if b.toNat < chrn.toNat ∧ k.toNat < Config.tilesPerBank ∧
        chrOff f6 prgn b.toNat + Config.chrBankSize ≤ s.len then
      AnswersView (.tile b k) s (tileOff f6 prgn b.toNat k.toNat) 16
    else AnswersError (.tile b k) s .rangeError := by
  refine hinv.answers_view_or_rangeError
    (fun ⟨_, hk, hbank⟩ => (tileOff_end_le f6 prgn b.toNat hk).trans hbank) ?_
  rw [exec, execTile, whenReady_ready hr, withByte_some h5, withByte_some h6, withByte_some h4,
    fits, if_congr decide_eq_true_iff rfl rfl, indexCheck_then_check, indexCheck_then_check,
    Config.tileSize]

/-- A start at or past the end is an absent title (R143 step 3). -/
theorem execTitle_absent
    (habsent : s.len ≤ titleStart s.img (titleNominal f6 prgn chrn)) :
    execTitle s = respond (titleStart s.img (titleNominal f6 prgn chrn)) 0 [] s := by
  rw [execTitle, whenReady_ready hr, withByte_some h6, withByte_some h4, withByte_some h5]
  exact if_pos habsent

/-- A start inside the buffer is a title, up to where the scan ends (R143 step 4). -/
theorem execTitle_present {start p : Nat}
    (hstart : titleStart s.img (titleNominal f6 prgn chrn) = start) (hlt : start < s.len)
    (hp : titleEnd s.img start (s.len - start) = some p) :
    execTitle s = respondView start (p - start) s := by
  rw [execTitle, whenReady_ready hr, withByte_some h6, withByte_some h4, withByte_some h5]
  simp only [hstart, if_neg (Nat.not_le.2 hlt), hp]

end

/-! ### The title's start -/

/-- A marker byte that exists is skipped (R143 step 2). -/
theorem titleStart_marker {m : Memory} (hwf : m.wf = true) {t0 : Nat}
    (h : m.read? t0 = some 0xFF) : titleStart m t0 = t0 + 1 :=
  if_pos ⟨Memory.lt_of_read? hwf h, h⟩

theorem titleStart_no_marker {m : Memory} {t0 : Nat} (h : m.read? t0 ≠ some 0xFF) :
    titleStart m t0 = t0 :=
  if_neg fun hm => h hm.2

theorem titleStart_lt (m : Memory) (f6 prgn chrn : Byte) :
    titleStart m (titleNominal f6 prgn chrn) < 2 ^ 32 := by
  have hle := titleStart_le m (titleNominal f6 prgn chrn)
  have hlt := chrOff_lt f6 prgn (i := chrn.toNat) (by omega)
  rw [titleNominal] at hle ⊢
  omega

/-! ### The statements -/

/-- Settles O42: the two tests are the index check and the bounds check, in one. -/
theorem prgsliceViewsTheBankOrRaisesRangeError :
    Obligations.PrgsliceViewsTheBankOrRaisesRangeError := by
  intro s i hinv hr
  obtain ⟨prgn, -, f6, h4, -, h6⟩ := hinv.mapBytes hr
  have h := hinv.prgslice_answers hr h4 h6 i
  rw [prgOff_eq] at h
  exact ⟨prgn, f6, h4, h6, h⟩

/-- Settles O43: the index check and the bounds check of that bank alone, in one. -/
theorem chrsliceViewsTheBankOrRaisesRangeError :
    Obligations.ChrsliceViewsTheBankOrRaisesRangeError := by
  intro s i hinv hr
  obtain ⟨prgn, chrn, f6, h4, h5, h6⟩ := hinv.mapBytes hr
  have h := hinv.chrslice_answers hr h4 h5 h6 i
  rw [chrOff_eq] at h
  exact ⟨prgn, chrn, f6, h4, h5, h6, h⟩

/-- Settles O44: with the flag clear the region is empty, and 16 bytes are always there (R25). -/
theorem trnsliceViewsTheTrainerOrRaisesRangeError :
    Obligations.TrnsliceViewsTheTrainerOrRaisesRangeError := by
  intro s hinv hr
  obtain ⟨-, -, f6, -, -, h6⟩ := hinv.mapBytes hr
  have h := hinv.trnslice_answers hr h6
  rw [trainerBytes_eq] at h
  refine ⟨f6, h6, fun hclear => ?_, fun hset hlen => ?_, fun hset hlen => ?_⟩
  · have hheader : 16 ≤ s.len := (hinv.2.2.2 hr).1
    rwa [hclear, if_pos hheader] at h
  · rwa [hset, if_pos hlen] at h
  · rwa [hset, if_neg (Nat.not_le.2 hlen)] at h

/-- Settles O45: the start is one past the marker or the nominal offset, and the scan from there
stops at the first zero or the end. -/
theorem titleViewsUpToTheFirstZeroOrTheEnd : Obligations.TitleViewsUpToTheFirstZeroOrTheEnd := by
  intro s hinv hr
  obtain ⟨prgn, chrn, f6, h4, h5, h6⟩ := hinv.mapBytes hr
  have hnominal := chrOff_eq f6 prgn chrn.toNat
  refine ⟨prgn, chrn, f6, titleStart s.img (titleNominal f6 prgn chrn), h4, h5, h6, ?_⟩
  rw [← hnominal]
  refine ⟨titleStart_marker hinv.1, titleStart_no_marker, fun habsent => ?_, fun hlt => ?_⟩
  · exact answersView_of_memRead (Memory.memRead_zero _ _)
      (execTitle_absent hr h4 h5 h6 habsent) (titleStart_lt _ f6 prgn chrn) (by decide)
  · obtain ⟨p, hp, hle, hend, hnonzero, hzero⟩ := titleEnd_spec hinv.1 (Nat.add_sub_of_le hlt.le)
    refine ⟨p, hle, hend, hnonzero, hzero,
      hinv.answersView ?_ (execTitle_present hr h4 h5 h6 rfl hlt hp)⟩
    rw [Nat.add_sub_of_le hle]
    exact hend

/-- Settles O46: the index checks and the bounds check of the whole bank, in one. -/
theorem tileViewsTheRecordOrRaisesRangeError :
    Obligations.TileViewsTheRecordOrRaisesRangeError := by
  intro s b k hinv hr
  obtain ⟨prgn, chrn, f6, h4, h5, h6⟩ := hinv.mapBytes hr
  have h := hinv.tile_answers hr h4 h5 h6 b k
  rw [Config.tilesPerBank_eq, tileOff, chrOff_eq] at h
  exact ⟨prgn, chrn, f6, h4, h5, h6, h⟩

/-- Settles O47: `TILE`'s test is `CHRSLICE`'s and the record check, and the piece of the view is
the one of `StateInv.tiles_of_chrslice`. -/
theorem aTileIsItsPieceOfTheBanksView : Obligations.ATileIsItsPieceOfTheBanksView := by
  intro s b k hinv hr
  obtain ⟨prgn, chrn, f6, h4, h5, h6⟩ := hinv.mapBytes hr
  have hslice := hinv.chrslice_answers hr h4 h5 h6 (b.setWidth 16)
  have htile := hinv.tile_answers hr h4 h5 h6 b k
  have hindex : (b.setWidth 16).toNat = b.toNat := BitVec.toNat_setWidth_of_le (by decide)
  rw [hindex] at hslice
  refine ⟨fun v0 v1 d h hk => ?_, fun herror => ?_, fun hk => ?_⟩
  · obtain ⟨hb, hbank, -⟩ := chrslice_ok_bank hr h4 h5 h6 hinv.1 h
    rw [hindex] at hb hbank
    rw [if_pos ⟨hb, hbank⟩] at hslice
    rw [if_pos ⟨hb, hk, hbank⟩] at htile
    obtain ⟨w0, hpiece⟩ := (hinv.tiles_of_chrslice hr h).2 k hk
    refine ⟨w0, ?_, hpiece⟩
    rw [htile.start_eq hpiece, hslice.start_eq h, tileOff, Config.tileSize]
  · split at htile
    case isTrue hok =>
      obtain ⟨hb, -, hbank⟩ := hok
      rw [if_pos ⟨hb, hbank⟩] at hslice
      exact absurd herror (hslice.not_answersError .rangeError)
    case isFalse => exact htile
  · rwa [if_neg fun ⟨_, hlt, _⟩ => Nat.not_lt.2 hk hlt] at htile

end Sys2Proof.Machine

/-! PROOFS, family 60_exceptions.md. An error is a delivered response and nothing else, so most of
the family is read off from the endings of a command. For the status matrix of R170, `StatusIn` says
which statuses a result can give. -/

namespace Sys2Proof.Machine

/-! ### The status codes -/

/-- The status of a code: codes 6 to 15 have none (R160). -/
def Status.ofCode (c : BitVec 4) : Option Status :=
  match c.toNat with
  | 0 => some .ok
  | 1 => some (.error .headerMismatch)
  | 2 => some (.error .rangeError)
  | 3 => some (.error .notDecoded)
  | 4 => some (.error .alreadyDecoded)
  | 5 => some (.error .illegalCommand)
  | _ => none

theorem Status.ofCode_code (st : Status) : Status.ofCode st.code = some st := by
  cases st with
  | ok => rfl
  | error e => cases e <;> rfl

theorem Status.code_injective : Function.Injective Status.code := fun a b h =>
  Option.some.inj <| by rw [← ofCode_code a, h, ofCode_code b]

/-- Settles O24: a status can be read back from its code. -/
theorem statusCodesAreTheSpecsNumbers : Obligations.StatusCodesAreTheSpecsNumbers :=
  ⟨rfl, rfl, rfl, rfl, rfl, rfl, fun _ _ h => Status.code_injective h⟩

/-! ### Nothing pending, an illegal word, an event after an error -/

/-- Settles O10: the idle branch of the step. -/
theorem withNothingPendingAStepChangesNothing :
    Obligations.WithNothingPendingAStepChangesNothing :=
  fun _ hin => step_idle hin

/-- Settles O7: a word that decodes to an instruction matches that instruction's row. -/
theorem aWordThatMatchesNoRowRaisesIllegalCommand :
    Obligations.AWordThatMatchesNoRowRaisesIllegalCommand := by
  intro s c rest hin hrows
  have hd : ∀ i, decode c.word ≠ .instr i := by
    intro i hi
    obtain ⟨r, hr, hsel, -⟩ := (decoderAcceptsExactlyTheOpcodeMap c.word).1 i hi
    exact hrows r hr hsel
  rw [step_illegal hin hd, raise, State.deliver, hin]
  rfl

/-- Settles O19: the error leaves the block, and the next step reads the block and its own event
alone. -/
theorem afterAnErrorTheNextEventRunsAsIfNothingHadFailed :
    Obligations.AfterAnErrorTheNextEventRunsAsIfNothingHadFailed := by
  intro s t u c e rest k hin hst hresp htu
  obtain ⟨r, hresp', herr⟩ := step_command_answer hin hst
  obtain rfl : r = ⟨.error k, 0, 0, []⟩ := by simpa using hresp'.symm.trans hresp
  obtain ⟨-, rfl⟩ := herr k rfl
  rw [State.deliver, hin] at htu
  obtain ⟨new, hui, hur, hstep⟩ :=
    aStepReadsOnlyItsOwnEvent s.ready s.img e rest rest _ s.responses u htu
  exact ⟨new, hur, by rw [hstep, hui]⟩

/-! ### The state check -/

theorem isAccessor_of_ne {i : Instr} (hd : i ≠ .decode) (hr : i ≠ .reset) :
    i.isAccessor = true := by
  cases i with
  | decode => exact absurd rfl hd
  | reset => exact absurd rfl hr
  | _ => rfl

/-- Every accessor begins with the state check (R163). -/
theorem exec_accessor_idle {i : Instr} {s : State} (hi : i.isAccessor = true)
    (hs : s.ready = false) : exec i s = raise .notDecoded s := by
  cases i with
  | decode | reset => cases hi
  | _ => exact whenReady_idle hs _

/-- Settles O22, by the state check. -/
theorem accessorsInIdleRaiseNotDecoded : Obligations.AccessorsInIdleRaiseNotDecoded :=
  fun _ _ hd hr hs => exec_accessor_idle (isAccessor_of_ne hd hr) hs

/-! ### The status matrix -/

/-- The one response that the result adds to those of `s`, if it does, has a status in `P`. -/
def StatusIn (P : Status → Prop) (s : State) (R : Result) : Prop :=
  ∀ t r, R = .next t → t.responses = s.responses ++ [r] → P r.st

namespace StatusIn
variable {P : Status → Prop} {s : State}

/-- A response delivered in any state that keeps the responses of `s`: `latch` and `clear` do. -/
theorem deliver {s' : State} {r : Response} (hs : s'.responses = s.responses) (h : P r.st) :
    StatusIn P s (.next (s'.deliver r)) := by
  rintro _ r' ⟨⟩ hr'
  rw [State.deliver_responses, hs] at hr'
  obtain rfl : r = r' := by simpa using hr'
  exact h

theorem raise {e : ErrorKind} (h : P (.error e)) : StatusIn P s (raise e s) := deliver rfl h

theorem fault (f : Fault) : StatusIn P s (.fault f) := by
  rintro _ _ ⟨⟩

theorem refused (f : Refusal) : StatusIn P s (.refused f) := by
  rintro _ _ ⟨⟩

theorem ite {p : Prop} [Decidable p] {R R' : Result} (h : StatusIn P s R)
    (h' : StatusIn P s R') : StatusIn P s (if p then R else R') := by
  split
  · exact h
  · exact h'

theorem withByte {a : Nat} {body : Byte → Result} (h : ∀ b, StatusIn P s (body b)) :
    StatusIn P s (withByte s a body) := by
  unfold Machine.withByte
  split
  · exact h _
  · exact fault _

theorem of_neverRaises {R : Result} (hR : NeverRaises s R) (hok : P .ok) : StatusIn P s R := by
  intro t r h
  obtain ⟨r', hst, rfl⟩ := hR t h
  exact deliver rfl (hst ▸ hok) _ r rfl

theorem respondView (off size : Nat) (hok : P .ok) : StatusIn P s (respondView off size s) :=
  of_neverRaises (respondView_neverRaises off size s) hok

theorem checkedView (off size : Nat) (hok : P .ok) (hrange : P (.error .rangeError)) :
    StatusIn P s (checkedView off size s) :=
  (respondView off size hok).ite (raise hrange)

/-- In state Ready the region commands other than `TITLE` raise `RangeError` or nothing (R162). -/
theorem exec_rangeError {i : Instr} (hi : canRaiseRangeError i = true) (hs : s.ready = true)
    (hok : P .ok) (hrange : P (.error .rangeError)) : StatusIn P s (exec i s) := by
  have hview := fun off size => checkedView (s := s) off size hok hrange
  have hraise := raise (s := s) hrange
  cases i with
  | prgslice n =>
    rw [exec, execPrgslice, whenReady_ready hs]
    exact .withByte fun _ => hraise.ite (.withByte fun _ => hview _ _)
  | chrslice n =>
    rw [exec, execChrslice, whenReady_ready hs]
    exact .withByte fun _ => hraise.ite (.withByte fun _ => .withByte fun _ => hview _ _)
  | trnslice =>
    rw [exec, execTrnslice, whenReady_ready hs]
    exact .withByte fun _ => hview _ _
  | tile b k =>
    rw [exec, execTile, whenReady_ready hs]
    exact .withByte fun _ => hraise.ite (hraise.ite (.withByte fun _ => .withByte fun _ =>
      (respondView _ _ hok).ite hraise))
  | _ => cases hi

theorem execDecode_idle (hs : s.ready = false) (hok : P .ok)
    (hmismatch : P (.error .headerMismatch)) : StatusIn P s (execDecode s) := by
  obtain ⟨-, he⟩ | ⟨-, hready, -⟩ | ⟨-, -, -, he⟩ | ⟨-, -, -, -, he⟩ := execDecode_cases s
  · rw [he]
    exact refused _
  · simp [hs] at hready
  · rw [he]
    exact raise hmismatch
  · rw [he]
    exact deliver rfl hok

theorem execDecode_ready (hs : s.ready = true) (halready : P (.error .alreadyDecoded)) :
    StatusIn P s (execDecode s) := by
  by_cases hb : (bulkOperand s).length ≤ Config.lenMax
  · rw [Machine.execDecode_ready hb hs]
    exact raise halready
  · rw [execDecode_overlong (Nat.lt_of_not_le hb)]
    exact refused _

end StatusIn

/-- Settles O23: one lemma for each row and state of the matrix. -/
theorem everyStatusIsOneTheStatusMatrixAllows :
    Obligations.EveryStatusIsOneTheStatusMatrixAllows := by
  intro i s t r h hr
  have hstatus : ∀ {P : Status → Prop}, StatusIn P s (exec i s) → P r.st := fun hP => hP t r h hr
  refine ⟨?_, ?_, ?_, fun hi hs => ?_, fun _ hs hrange => ?_, fun hi hs hrange => ?_⟩
  · rintro rfl hs
    exact hstatus (P := fun st => st = .ok ∨ st = .error .headerMismatch)
      (.execDecode_idle hs (.inl rfl) (.inr rfl))
  · rintro rfl hs
    exact hstatus (P := (· = .error .alreadyDecoded)) (.execDecode_ready hs rfl)
  · rintro rfl
    exact hstatus (P := (· = .ok)) (.deliver (s' := s.clear) rfl rfl)
  · rw [exec_accessor_idle hi hs] at hstatus
    exact hstatus (P := (· = .error .notDecoded)) (.raise rfl)
  · exact hstatus (P := fun st => st = .ok ∨ st = .error .rangeError)
      (.exec_rangeError hrange hs (.inl rfl) (.inr rfl))
  · exact hstatus (P := (· = .ok)) (.of_neverRaises (exec_neverRaises hi hrange hs) rfl)

end Sys2Proof.Machine

/-! PROOFS, family 70_reset_and_hazards.md. That a step answers and keeps the invariant is shown with
the family 00_scope.md; what remains is that it leaves only presentable events pending, and what the
reset event leaves (R180). -/

namespace Sys2Proof.Machine

/-- What a step leaves pending was pending before, so it stays presentable (R7). -/
theorem step_keeps_presentable {s t : State} (hp : InputPresentable s) (h : step s = .next t) :
    InputPresentable t := by
  rw [InputPresentable, step_input h]
  exact List.all_eq_true.2 fun e he => List.all_eq_true.1 hp e (List.mem_of_mem_tail he)

/-- Settles O15: under the invariant no branch of the step faults or refuses, and the step keeps both
hypotheses. -/
theorem aStepFromTheInvariantAlwaysAnswers : Obligations.AStepFromTheInvariantAlwaysAnswers := by
  intro s hinv hp
  obtain ⟨t, ht⟩ := hinv.step_continues hp
  exact ⟨t, ht, hinv.step ht, step_keeps_presentable hp ht⟩

/-- Settles O9: the event clears the block and is taken off the host's list; `RESET` clears the same
block and answers. -/
theorem theResetEventClearsTheBlockWithoutAResponse :
    Obligations.TheResetEventClearsTheBlockWithoutAResponse := by
  intro s rest hin
  have hpending : s.clear.retire.input = rest := by
    rw [State.retire_input, State.clear_input, hin, List.tail_cons]
  exact ⟨s.clear.retire, s.clear.deliver (okResponse 0 0 []), step_resetEvent hin, rfl, rfl, rfl,
    hpending, rfl, rfl, rfl, rfl⟩

end Sys2Proof.Machine
